-- ==== Sys2Proof/Word.lean ====
section
/-! DEFINITION. The word types of the chipate CORE: every value of the machine is unsigned bits
(spec 00_scope R7). -/

namespace Sys2Proof

/-- A byte of memory, a general register, a timer (R21, R29, R31). -/
abbrev Byte := BitVec 8

/-- A 16-bit word: an instruction, `I`, `pc`, a stack slot (R24, R25, R28, R90). -/
abbrev Word := BitVec 16

/-- A 4-bit field: a register index, a row count (R91, R93). -/
abbrev Nibble := BitVec 4

/-- The 12-bit address field `nnn` (R91, R93). -/
abbrev Addr12 := BitVec 12

end Sys2Proof
end

