-- ==== Sys2Proof/Config.lean ====
section
/-! DEFINITION. What the architecture fixes (spec 00_scope R5) and what is free: the caller's inputs
and schedule, and the font's place. -/

namespace Sys2Proof

/-- One turn of the caller: the inputs it presents with one `Step` (10_state R34, R35), and how many
`Tick` events it issues after that step and before the next one (60_exceptions R262). -/
structure Turn where
  /-- Bit `k` is 1 when key `k` is pressed (R34). -/
  keys : BitVec 16
  /-- The draw, read by RND alone (R35). -/
  rnd : Byte
  /-- The `Tick` events between this step and the next. -/
  ticks : Nat
  deriving DecidableEq, Repr, Inhabited

namespace Config

/-- MEM_SIZE: addresses 0 to 4095 (R5). -/
def memSize : Nat := 4096

/-- ENTRY: load offset and initial pc (R5, R292). -/
def entry : Word := 0x200#16

/-- MAX_IMAGE: the longest program image, in bytes (R5, R296). -/
def maxImage : Nat := 3584

/-- STACK_SLOTS (R5). -/
def stackSlots : Nat := 16

/-- FB_H, rows of the framebuffer (R5). -/
def fbRows : Nat := 32

/-- FB_W, columns of the framebuffer (R5). -/
def fbCols : Nat := 64

/-- GLYPH_BYTES (R5, R192). -/
def glyphBytes : Nat := 5

/-- FREE VALUE: the turn the caller takes when none is scripted in `State.turns`, by turn number. The
block puts no law on `keys`, `rnd` or the schedule (R34, R35, R38, R262). Log 1. -/
opaque callerTurn : Nat → Turn

/-- OPEN parameter FONT_BASE as a number: any address with `FONT_BASE + 79 <= 0x1FF`, so 0 to 432
(R5, D14). Log 2. -/
opaque fontBaseOpen : Fin 433

/-- FONT_BASE as an address (R5, R192). -/
def fontBase : Nat := fontBaseOpen.val

end Config

end Sys2Proof
end

