-- ==== Sys2Proof/Syntax.lean ====
section
/-! DEFINITION. The instruction set: one constructor per row of spec/opcode_table.json, in the
table's order, carrying the fields the row names (spec 30_encoding R91, R92, R95). An ignored field
(R97) is carried too, so that an instruction and its word determine each other. -/

namespace Sys2Proof

/-- The 35 instructions of R95. `x`, `y` are register indexes, `n` a row count or an ignored nibble,
`kk` an 8-bit immediate, `nnn` a 12-bit address; all are unsigned and used as they stand (R93). -/
inductive Instr where
  /-- `00E0` CLS, R211. -/
  | cls
  /-- `00EE` RET, R123. -/
  | ret
  /-- `0nnn` SYS nnn, reserved, R122. -/
  | sys (nnn : Addr12)
  /-- `1nnn` JP nnn, R124. -/
  | jp (nnn : Addr12)
  /-- `2nnn` CALL nnn, R125. -/
  | call (nnn : Addr12)
  /-- `3xkk` SE Vx, kk, R141. -/
  | seImm (x : Nibble) (kk : Byte)
  /-- `4xkk` SNE Vx, kk, R142. -/
  | sneImm (x : Nibble) (kk : Byte)
  /-- `5xyn` SE Vx, Vy, R143; `n` is ignored (R97). -/
  | seReg (x y n : Nibble)
  /-- `6xkk` LD Vx, kk, R162. -/
  | ldImm (x : Nibble) (kk : Byte)
  /-- `7xkk` ADD Vx, kk, R163. -/
  | addImm (x : Nibble) (kk : Byte)
  /-- `8xy0` LD Vx, Vy, R164. -/
  | ldReg (x y : Nibble)
  /-- `8xy1` OR Vx, Vy, R165. -/
  | orReg (x y : Nibble)
  /-- `8xy2` AND Vx, Vy, R166. -/
  | andReg (x y : Nibble)
  /-- `8xy3` XOR Vx, Vy, R167. -/
  | xorReg (x y : Nibble)
  /-- `8xy4` ADD Vx, Vy, R168. -/
  | addReg (x y : Nibble)
  /-- `8xy5` SUB Vx, Vy, R169. -/
  | subReg (x y : Nibble)
  /-- `8xy6` SHR Vx, R170; `y` is ignored (R97). -/
  | shr (x y : Nibble)
  /-- `8xy7` SUBN Vx, Vy, R171. -/
  | subnReg (x y : Nibble)
  /-- `8xyE` SHL Vx, R172; `y` is ignored (R97). -/
  | shl (x y : Nibble)
  /-- `9xyn` SNE Vx, Vy, R144; `n` is ignored (R97). -/
  | sneReg (x y n : Nibble)
  /-- `Annn` LD I, nnn, R190. -/
  | ldI (nnn : Addr12)
  /-- `Bnnn` JP V0, nnn, R126. -/
  | jpV0 (nnn : Addr12)
  /-- `Cxkk` RND Vx, kk, R173. -/
  | rnd (x : Nibble) (kk : Byte)
  /-- `Dxyn` DRW Vx, Vy, n, R212. -/
  | drw (x y n : Nibble)
  /-- `Ex9E` SKP Vx, R145. -/
  | skp (x : Nibble)
  /-- `ExA1` SKNP Vx, R146. -/
  | sknp (x : Nibble)
  /-- `Fx07` LD Vx, DT, R230. -/
  | ldVxDt (x : Nibble)
  /-- `Fx0A` LD Vx, K, R233. -/
  | ldVxK (x : Nibble)
  /-- `Fx15` LD DT, Vx, R231. -/
  | ldDtVx (x : Nibble)
  /-- `Fx18` LD ST, Vx, R232. -/
  | ldStVx (x : Nibble)
  /-- `Fx1E` ADD I, Vx, R191. -/
  | addIVx (x : Nibble)
  /-- `Fx29` LD F, Vx, R192. -/
  | ldFVx (x : Nibble)
  /-- `Fx33` LD B, Vx, R193. -/
  | ldBVx (x : Nibble)
  /-- `Fx55` LD [I], Vx, R194. -/
  | ldMemVx (x : Nibble)
  /-- `Fx65` LD Vx, [I], R195. -/
  | ldVxMem (x : Nibble)
  deriving DecidableEq, Repr

end Sys2Proof
end

