-- ==== Sys2Proof/Decode.lean ====
section
/-! DEFINITION. Decoding (spec 30_encoding R90, R91, R94, R96) and the encoder written from the same
map (R92, R95). -/

namespace Sys2Proof

/-- Why a word or a byte sequence is no instruction (R96). The machine reports every one of them as the
one fault DecodeFailure (60_exceptions R251); the names are the model's. -/
inductive DecodeReject where
  /-- Fewer than the two bytes of an instruction (R90); a fetch never gives this. -/
  | truncated
  /-- `8xyn` with `n` in 8, 9, A, B, C, D, F. -/
  | family8 (n : Nibble)
  /-- `Exkk` with `kk` not 9E or A1. -/
  | familyE (kk : Byte)
  /-- `Fxkk` with an unlisted `kk`. -/
  | familyF (kk : Byte)
  deriving DecidableEq, Repr

/-- What decoding answers: an instruction, or a rejection by name. -/
inductive Decoded where
  | instr (i : Instr)
  | reject (r : DecodeReject)
  deriving DecidableEq, Repr

/-- Field `t`, bits 15:12 (R91). -/
def fieldT (op : Word) : Nibble := op.extractLsb' 12 4

/-- Field `x`, bits 11:8 (R91). -/
def fieldX (op : Word) : Nibble := op.extractLsb' 8 4

/-- Field `y`, bits 7:4 (R91). -/
def fieldY (op : Word) : Nibble := op.extractLsb' 4 4

/-- Field `n`, bits 3:0 (R91). -/
def fieldN (op : Word) : Nibble := op.extractLsb' 0 4

/-- Field `kk`, bits 7:0 (R91). -/
def fieldKK (op : Word) : Byte := op.extractLsb' 0 8

/-- Field `nnn`, bits 11:0 (R91). -/
def fieldNNN (op : Word) : Addr12 := op.extractLsb' 0 12

/-- Family 0: all sixteen bits are matched; every word but CLS and RET is the reserved SYS (R94, R122). -/
def decodeFamily0 (op : Word) : Instr :=
  if op = 0x00E0#16 then .cls
  else if op = 0x00EE#16 then .ret
  else .sys (fieldNNN op)

/-- Family 8: the low nibble selects the operation (R94). -/
def decodeFamily8 (x y n : Nibble) : Decoded :=
  match n.toNat with
  | 0x0 => .instr (.ldReg x y)
  | 0x1 => .instr (.orReg x y)
  | 0x2 => .instr (.andReg x y)
  | 0x3 => .instr (.xorReg x y)
  | 0x4 => .instr (.addReg x y)
  | 0x5 => .instr (.subReg x y)
  | 0x6 => .instr (.shr x y)
  | 0x7 => .instr (.subnReg x y)
  | 0xE => .instr (.shl x y)
  | _ => .reject (.family8 n)

/-- Family E: the whole low byte selects the operation (R94). -/
def decodeFamilyE (x : Nibble) (kk : Byte) : Decoded :=
  if kk = 0x9E#8 then .instr (.skp x)
  else if kk = 0xA1#8 then .instr (.sknp x)
  else .reject (.familyE kk)

/-- Family F: the whole low byte selects the operation (R94). -/
def decodeFamilyF (x : Nibble) (kk : Byte) : Decoded :=
  if kk = 0x07#8 then .instr (.ldVxDt x)
  else if kk = 0x0A#8 then .instr (.ldVxK x)
  else if kk = 0x15#8 then .instr (.ldDtVx x)
  else if kk = 0x18#8 then .instr (.ldStVx x)
  else if kk = 0x1E#8 then .instr (.addIVx x)
  else if kk = 0x29#8 then .instr (.ldFVx x)
  else if kk = 0x33#8 then .instr (.ldBVx x)
  else if kk = 0x55#8 then .instr (.ldMemVx x)
  else if kk = 0x65#8 then .instr (.ldVxMem x)
  else .reject (.familyF kk)

/-- `Decode(op)` of R94: dispatch on the top nibble, then within families 0, 8, E and F. Families 5 and 9
ignore their low nibble (R97). SYS is answered as an instruction; its meaning raises DecodeFailure (R122). -/
def decodeWord (op : Word) : Decoded :=
  match (fieldT op).toNat with
  | 0x0 => .instr (decodeFamily0 op)
  | 0x1 => .instr (.jp (fieldNNN op))
  | 0x2 => .instr (.call (fieldNNN op))
  | 0x3 => .instr (.seImm (fieldX op) (fieldKK op))
  | 0x4 => .instr (.sneImm (fieldX op) (fieldKK op))
  | 0x5 => .instr (.seReg (fieldX op) (fieldY op) (fieldN op))
  | 0x6 => .instr (.ldImm (fieldX op) (fieldKK op))
  | 0x7 => .instr (.addImm (fieldX op) (fieldKK op))
  | 0x8 => decodeFamily8 (fieldX op) (fieldY op) (fieldN op)
  | 0x9 => .instr (.sneReg (fieldX op) (fieldY op) (fieldN op))
  | 0xA => .instr (.ldI (fieldNNN op))
  | 0xB => .instr (.jpV0 (fieldNNN op))
  | 0xC => .instr (.rnd (fieldX op) (fieldKK op))
  | 0xD => .instr (.drw (fieldX op) (fieldY op) (fieldN op))
  | 0xE => decodeFamilyE (fieldX op) (fieldKK op)
  | _ => decodeFamilyF (fieldX op) (fieldKK op)

/-- The instruction word of the two bytes at `pc` and `pc + 1`, big-endian (R90, 20_memory R64). -/
def wordOfBytes (b0 b1 : Byte) : Word := b0 ++ b1

/-- Decoding of any byte sequence: an instruction is its first two bytes (R90). -/
def decode : List Byte → Decoded
  | b0 :: b1 :: _ => decodeWord (wordOfBytes b0 b1)
  | _ => .reject .truncated

/-- The two bytes of a word as they lie in memory, the high byte at the lower address (20_memory R64). -/
def bytesOfWord (w : Word) : List Byte := [w.extractLsb' 8 8, w.extractLsb' 0 8]

/-- Format NNN (R92). -/
def wordNNN (t : Nibble) (nnn : Addr12) : Word := t ++ nnn

/-- Formats XKK and X (R92). -/
def wordXKK (t x : Nibble) (kk : Byte) : Word := t ++ x ++ kk

/-- Formats XY and XYN (R92). -/
def wordXYN (t x y n : Nibble) : Word := t ++ x ++ y ++ n

/-- The word of an instruction, from the map of R95. -/
def encode : Instr → Word
  | .cls => 0x00E0#16
  | .ret => 0x00EE#16
  | .sys nnn => wordNNN 0x0#4 nnn
  | .jp nnn => wordNNN 0x1#4 nnn
  | .call nnn => wordNNN 0x2#4 nnn
  | .seImm x kk => wordXKK 0x3#4 x kk
  | .sneImm x kk => wordXKK 0x4#4 x kk
  | .seReg x y n => wordXYN 0x5#4 x y n
  | .ldImm x kk => wordXKK 0x6#4 x kk
  | .addImm x kk => wordXKK 0x7#4 x kk
  | .ldReg x y => wordXYN 0x8#4 x y 0x0#4
  | .orReg x y => wordXYN 0x8#4 x y 0x1#4
  | .andReg x y => wordXYN 0x8#4 x y 0x2#4
  | .xorReg x y => wordXYN 0x8#4 x y 0x3#4
  | .addReg x y => wordXYN 0x8#4 x y 0x4#4
  | .subReg x y => wordXYN 0x8#4 x y 0x5#4
  | .shr x y => wordXYN 0x8#4 x y 0x6#4
  | .subnReg x y => wordXYN 0x8#4 x y 0x7#4
  | .shl x y => wordXYN 0x8#4 x y 0xE#4
  | .sneReg x y n => wordXYN 0x9#4 x y n
  | .ldI nnn => wordNNN 0xA#4 nnn
  | .jpV0 nnn => wordNNN 0xB#4 nnn
  | .rnd x kk => wordXKK 0xC#4 x kk
  | .drw x y n => wordXYN 0xD#4 x y n
  | .skp x => wordXKK 0xE#4 x 0x9E#8
  | .sknp x => wordXKK 0xE#4 x 0xA1#8
  | .ldVxDt x => wordXKK 0xF#4 x 0x07#8
  | .ldVxK x => wordXKK 0xF#4 x 0x0A#8
  | .ldDtVx x => wordXKK 0xF#4 x 0x15#8
  | .ldStVx x => wordXKK 0xF#4 x 0x18#8
  | .addIVx x => wordXKK 0xF#4 x 0x1E#8
  | .ldFVx x => wordXKK 0xF#4 x 0x29#8
  | .ldBVx x => wordXKK 0xF#4 x 0x33#8
  | .ldMemVx x => wordXKK 0xF#4 x 0x55#8
  | .ldVxMem x => wordXKK 0xF#4 x 0x65#8

/-- A row of R95's map: the word matches when `(op AND mask) = pattern`. -/
structure OpcodeRow where
  pattern : Word
  mask : Word
  deriving DecidableEq, Repr

/-- The "mask / match" column of R95, by instruction. -/
def Instr.row : Instr → OpcodeRow
  | .cls => { pattern := 0x00E0#16, mask := 0xFFFF#16 }
  | .ret => { pattern := 0x00EE#16, mask := 0xFFFF#16 }
  | .sys _ => { pattern := 0x0000#16, mask := 0xF000#16 }
  | .jp _ => { pattern := 0x1000#16, mask := 0xF000#16 }
  | .call _ => { pattern := 0x2000#16, mask := 0xF000#16 }
  | .seImm _ _ => { pattern := 0x3000#16, mask := 0xF000#16 }
  | .sneImm _ _ => { pattern := 0x4000#16, mask := 0xF000#16 }
  | .seReg _ _ _ => { pattern := 0x5000#16, mask := 0xF000#16 }
  | .ldImm _ _ => { pattern := 0x6000#16, mask := 0xF000#16 }
  | .addImm _ _ => { pattern := 0x7000#16, mask := 0xF000#16 }
  | .ldReg _ _ => { pattern := 0x8000#16, mask := 0xF00F#16 }
  | .orReg _ _ => { pattern := 0x8001#16, mask := 0xF00F#16 }
  | .andReg _ _ => { pattern := 0x8002#16, mask := 0xF00F#16 }
  | .xorReg _ _ => { pattern := 0x8003#16, mask := 0xF00F#16 }
  | .addReg _ _ => { pattern := 0x8004#16, mask := 0xF00F#16 }
  | .subReg _ _ => { pattern := 0x8005#16, mask := 0xF00F#16 }
  | .shr _ _ => { pattern := 0x8006#16, mask := 0xF00F#16 }
  | .subnReg _ _ => { pattern := 0x8007#16, mask := 0xF00F#16 }
  | .shl _ _ => { pattern := 0x800E#16, mask := 0xF00F#16 }
  | .sneReg _ _ _ => { pattern := 0x9000#16, mask := 0xF000#16 }
  | .ldI _ => { pattern := 0xA000#16, mask := 0xF000#16 }
  | .jpV0 _ => { pattern := 0xB000#16, mask := 0xF000#16 }
  | .rnd _ _ => { pattern := 0xC000#16, mask := 0xF000#16 }
  | .drw _ _ _ => { pattern := 0xD000#16, mask := 0xF000#16 }
  | .skp _ => { pattern := 0xE09E#16, mask := 0xF0FF#16 }
  | .sknp _ => { pattern := 0xE0A1#16, mask := 0xF0FF#16 }
  | .ldVxDt _ => { pattern := 0xF007#16, mask := 0xF0FF#16 }
  | .ldVxK _ => { pattern := 0xF00A#16, mask := 0xF0FF#16 }
  | .ldDtVx _ => { pattern := 0xF015#16, mask := 0xF0FF#16 }
  | .ldStVx _ => { pattern := 0xF018#16, mask := 0xF0FF#16 }
  | .addIVx _ => { pattern := 0xF01E#16, mask := 0xF0FF#16 }
  | .ldFVx _ => { pattern := 0xF029#16, mask := 0xF0FF#16 }
  | .ldBVx _ => { pattern := 0xF033#16, mask := 0xF0FF#16 }
  | .ldMemVx _ => { pattern := 0xF055#16, mask := 0xF0FF#16 }
  | .ldVxMem _ => { pattern := 0xF065#16, mask := 0xF0FF#16 }

/-- `(op AND mask) = match` (R95). -/
def OpcodeRow.matchesWord (r : OpcodeRow) (op : Word) : Bool := op &&& r.mask == r.pattern

/-- The host's view of the decoder: the instruction whose bits are `w`, numbered as the opcode table
numbers them; bits at and above `nbits` are 0. The word is laid out as memory holds it (R64). -/
def decodeTableWord (nbits w : Nat) : Option Instr :=
  match decode (bytesOfWord (BitVec.ofNat 16 (w % 2 ^ nbits))) with
  | .instr i => some i
  | .reject _ => none

end Sys2Proof
end

