-- ==== Sys2Proof/Machine/State.lean ====
section
/-! DEFINITION. The state of the chipate CORE as plain data (spec 10_state R20 to R33), its reset
(R39, 70_reset_and_hazards R290), and the reasons a step can stop (60_exceptions R250). -/

namespace Sys2Proof.Machine

/-- Memory as (address, byte) pairs in one canonical form, `Memory.wf`: addresses strictly rising and
below 4096, no entry equal to what an unlisted address reads as (R31, R61). -/
abbrev Memory := List Host.Cell

/-- `V[0]` to `V[15]` (R21). -/
abbrev Regs := Vector Byte 16

/-- `fb[r][c]`, row `r` 0 to 31, column `c` 0 to 63: row `r` is one 64-bit word whose bit `c` is the pixel
(R32; the bit order is that of the output `fb_out`, R36). -/
abbrev Framebuffer := Vector (BitVec 64) 32

/-- `mode`, a run state and not a privilege level (R33, R261). -/
inductive Mode where
  | running
  /-- Waiting for a key that goes to register `t`; `pc` is still at the LD Vx,K instruction. -/
  | awaitingKey (t : Nibble)
  deriving DecidableEq, Repr

/-- Everything the spec gives the machine (R20), and the caller's turns, which are the model's own
(R38 says inputs and schedule are no state of the block; `exec` has nowhere else to read them; log 1). -/
structure State where
  /-- General registers, VF = `V[15]` included (R21, R23). -/
  regs : Regs
  /-- Index register `I` (R24). -/
  i : Word
  /-- Program counter (R25). -/
  pc : Word
  /-- Stack depth, 0 to 16 (R27). -/
  sp : Fin 17
  /-- Call stack; slot `k` of the spec is index `k - 1` (R28). -/
  stack : Vector Word 16
  /-- Delay timer `DT` (R29). -/
  dt : Byte
  /-- Sound timer `ST` (R30). -/
  st : Byte
  /-- Memory (R31). -/
  mem : Memory
  /-- Framebuffer (R32). -/
  fb : Framebuffer
  /-- `Running` or `AwaitingKey(t)` (R33). -/
  mode : Mode
  /-- MODEL'S OWN: the caller's turns already scripted, oldest first; when empty, the turn is free (log 1). -/
  turns : List Turn
  /-- MODEL'S OWN: the number of turns taken, which indexes the free turns (log 1). -/
  turnNo : Nat
  deriving DecidableEq, Repr

/-- The faults of R250. Each is the spec's own outcome, reported to the caller with the state unchanged
(R256): safe, nothing is stopped that the spec lets go on. -/
inductive Fault where
  /-- Code 1: the word matches no executing instruction. Raised by decode and by SYS (R251, R122). Safe. -/
  | decodeFailure
  /-- Code 2: an address to be used is above 4095. Raised by fetch, DRW, LD B, LD [I], LD Vx,[I] and
  JP V0 (R252, R67); and, the model's own choice, by a host write above 4095 (log 18). Safe. -/
  | memoryBounds
  /-- Code 3: CALL with sixteen return addresses held (R253). Safe. -/
  | stackOverflow
  /-- Code 4: RET with an empty stack (R254). Safe. -/
  | stackUnderflow
  /-- Code 5: raised by the host operation Load alone, never by a step (R250, R296). Safe. -/
  | programTooLarge
  deriving DecidableEq, Repr

/-- Reasons the model has no meaning to give. -/
inductive Refusal where
  /-- Raised by an arm of `exec` whose instruction has no meaning yet; no arm raises it. Safe. -/
  | notModelled (mnemonic : String)
  deriving DecidableEq, Repr

/-- What a step or a host operation answers. -/
abbrev Result := Host.Outcome State Fault Refusal

/-- The machine right after `Reset`: all zero, `pc = 0x200`, `mode = Running` (R39, R290 to R292). -/
def State.reset : State where
  regs := Vector.replicate 16 0#8
  i := 0#16
  pc := Config.entry
  sp := 0
  stack := Vector.replicate 16 0#16
  dt := 0#8
  st := 0#8
  mem := []
  fb := Vector.replicate 32 0#64
  mode := .running
  turns := []
  turnNo := 0

end Sys2Proof.Machine
end

