-- ==== Sys2Proof/Machine/Ops.lean ====
section
/-! DEFINITION. The named operations over the state: field writes, memory, stack, framebuffer, timers,
the caller's turn, raising a fault, fetching, and the key wait. -/

namespace Sys2Proof.Machine

/-! ## Faults -/

/-- `raise <Fault>` (00_scope R8): the one way an instruction takes an exception. There is no trap entry
and no return from one (60_exceptions R258, R259): the failure goes to the caller and the state is the one
before the step (R256), so the outcome carries no state. -/
def raise (f : Fault) : Result := .fault f

/-- Apply a state function to the next state of an outcome. -/
def mapNext (g : State → State) : Result → Result
  | .next s => .next (g s)
  | .fault f => .fault f
  | .refused r => .refused r

/-! ## Field writes -/

/-- `pc <- w` (R8). -/
def State.setPc (s : State) (w : Word) : State := { s with pc := w }

/-- `I <- w` (R8). -/
def State.setI (s : State) (w : Word) : State := { s with i := w }

/-- `DT <- v` (R8). -/
def State.setDt (s : State) (v : Byte) : State := { s with dt := v }

/-- `ST <- v` (R8). -/
def State.setSt (s : State) (v : Byte) : State := { s with st := v }

/-- `mode <- m` (R8). -/
def State.setMode (s : State) (m : Mode) : State := { s with mode := m }

/-- `sp <- n` (R8, R27). -/
def State.setSp (s : State) (n : Fin 17) : State := { s with sp := n }

/-- Replace the stack slots. -/
def State.setStack (s : State) (k : Vector Word 16) : State := { s with stack := k }

/-- Replace the memory. -/
def State.setMem (s : State) (m : Memory) : State := { s with mem := m }

/-- Replace the framebuffer. -/
def State.setFb (s : State) (f : Framebuffer) : State := { s with fb := f }

/-- Replace the register file. -/
def State.setRegs (s : State) (r : Regs) : State := { s with regs := r }

/-- `V[x]` (R8, R21). -/
def State.reg (s : State) (x : Nibble) : Byte := s.regs[x.toNat]'x.isLt

/-- `V[x] <- v` (R8, R21). -/
def State.setReg (s : State) (x : Nibble) (v : Byte) : State :=
  s.setRegs (s.regs.set x.toNat v x.isLt)

/-! ## Memory -/

/-- What an address nothing has written reads as: the reset value 0 (20_memory R69, 70_reset R291). -/
def Memory.unlisted : Byte := 0#8

/-- The byte at an address. -/
def Memory.read : Memory → Nat → Byte
  | [], _ => Memory.unlisted
  | c :: m, a => if c.1 = a then c.2 else Memory.read m a

/-- Drop the entry of an address. -/
def Memory.erase : Memory → Nat → Memory
  | [], _ => []
  | c :: m, a => if c.1 = a then Memory.erase m a else c :: Memory.erase m a

/-- Put an entry before the first higher address. -/
def Memory.insert : Memory → Nat → Byte → Memory
  | [], a, v => [(a, v)]
  | c :: m, a, v => if a < c.1 then (a, v) :: c :: m else c :: Memory.insert m a v

/-- `mem[a] <- v`, keeping the canonical form (20_memory R63). -/
def Memory.write (m : Memory) (a : Nat) (v : Byte) : Memory :=
  if v = Memory.unlisted then Memory.erase m a else Memory.insert (Memory.erase m a) a v

/-- The canonical form of a memory all of whose addresses are above `lo` (or any, when `lo` is none). -/
def Memory.wfAbove : Option Nat → Memory → Bool
  | _, [] => true
  | lo, c :: m =>
    lo.all (· < c.1) && c.1 < Config.memSize && c.2 != Memory.unlisted && Memory.wfAbove (some c.1) m

/-- The canonical form: addresses strictly rising and below 4096, no entry that reads as unlisted. -/
def Memory.wf (m : Memory) : Bool := Memory.wfAbove none m

/-- `n` bytes at rising addresses from `a`. -/
def Memory.readBytes (m : Memory) (a : Nat) : Nat → List Byte
  | 0 => []
  | n + 1 => Memory.read m a :: Memory.readBytes m (a + 1) n

/-- Write bytes one by one at rising addresses from `a` (20_memory R64, R66). -/
def Memory.writeBytes : Memory → Nat → List Byte → Memory
  | m, _, [] => m
  | m, a, b :: bs => Memory.writeBytes (Memory.write m a b) (a + 1) bs

/-- The `n` addresses from `a` all exist; with `n = 0` nothing is accessed (20_memory R62, R67). Addresses are
exact naturals: no wrap at 4096 and none at 65536 (R67, D10). -/
def inRange (a n : Nat) : Bool := n == 0 || a + n ≤ Config.memSize

/-- `MemRead` of `n` bytes, the bounds checked first (R62). -/
def State.readBlock (s : State) (a n : Nat) : Except Fault (List Byte) :=
  if inRange a n then .ok (Memory.readBytes s.mem a n) else .error .memoryBounds

/-- `MemWrite` of a run of bytes: the highest address is checked before any byte is written (R63). -/
def State.writeBlock (s : State) (a : Nat) (bs : List Byte) : Except Fault State :=
  if inRange a bs.length then .ok (s.setMem (Memory.writeBytes s.mem a bs)) else .error .memoryBounds

/-! ## Program counter -/

/-- `pc <- pc + 2` on 16 bits (40_control_flow R121). -/
def State.advance (s : State) : State := s.setPc (s.pc + 2#16)

/-- `Skip(cond)`: 4 when the condition holds, else 2 (41_skips R140). -/
def State.skipIf (s : State) (cond : Bool) : State := s.setPc (s.pc + if cond then 4#16 else 2#16)

/-! ## Stack -/

/-- `stack[sp + 1] <- w; sp <- sp + 1`; none when the stack is full (40_control_flow R125). -/
def State.push (s : State) (w : Word) : Option State :=
  if h : s.sp.val < 16 then
    some { s with stack := s.stack.set s.sp.val w h, sp := ⟨s.sp.val + 1, by omega⟩ }
  else none

/-- The slot `stack[sp]` and the state with `sp <- sp - 1`; none when the stack is empty. The slot is not
cleared (40_control_flow R123, 10_state R28). -/
def State.pop (s : State) : Option (Word × State) :=
  if h : s.sp.val = 0 then none
  else some (s.stack[s.sp.val - 1]'(by omega), { s with sp := ⟨s.sp.val - 1, by omega⟩ })

/-! ## Framebuffer -/

/-- The pixel at a row and a column, each wrapped (20_memory R74). -/
def Framebuffer.pixel (f : Framebuffer) (r c : Nat) : Bool :=
  (f[r % 32]'(Nat.mod_lt _ (by decide))).getLsbD (c % 64)

/-- Invert that pixel (44_display R212: `fb[r][c] XOR 1`). -/
def Framebuffer.flip (f : Framebuffer) (r c : Nat) : Framebuffer :=
  f.set (r % 32) (f[r % 32]'(Nat.mod_lt _ (by decide)) ^^^ BitVec.twoPow 64 (c % 64))
    (Nat.mod_lt _ (by decide))

/-- All 2048 pixels off (44_display R211). -/
def Framebuffer.clear : Framebuffer := Vector.replicate 32 0#64

/-- A framebuffer being drawn on, and the collision seen so far. -/
structure Canvas where
  fb : Framebuffer
  collision : Bool
  deriving DecidableEq, Repr

/-- One sprite bit at a place: a 0 leaves the pixel alone, a 1 inverts it and a pixel turned off is a
collision (44_display R212). -/
def Canvas.plot (p : Canvas) (bit : Bool) (r c : Nat) : Canvas :=
  if bit then
    { fb := Framebuffer.flip p.fb r c, collision := p.collision || Framebuffer.pixel p.fb r c }
  else p

/-- The first `k` columns of a sprite byte, bit 7 leftmost, from column `vx` on row `r` (R210, R212). -/
def Canvas.drawRow (p : Canvas) (b : Byte) (r vx : Nat) : Nat → Canvas
  | 0 => p
  | k + 1 => (Canvas.drawRow p b r vx k).plot (b.getLsbD (7 - k)) r (vx + k)

/-- The rows of a sprite, the first byte on row `vy`, each next one a row lower (R210, R212). -/
def Canvas.drawRows : Canvas → List Byte → Nat → Nat → Canvas
  | p, [], _, _ => p
  | p, b :: bs, vy, vx => Canvas.drawRows (p.drawRow b vy vx 8) bs (vy + 1) vx

/-! ## Timers and the caller's turn -/

/-- One tick of a timer: down by one, floored at zero (60_exceptions R262). -/
def tickTimer (v : Byte) : Byte := if v = 0#8 then 0#8 else v - 1#8

/-- `n` ticks of a timer. -/
def tickTimes : Nat → Byte → Byte
  | 0, v => v
  | n + 1, v => tickTimes n (tickTimer v)

/-- The `Tick` event: both timers, nothing else (60_exceptions R262). -/
def State.tick (s : State) : State := { s with dt := tickTimer s.dt, st := tickTimer s.st }

/-- The caller's present turn: the oldest scripted one, or a free one when none is scripted (log 1). -/
def State.turn (s : State) : Turn :=
  match s.turns with
  | t :: _ => t
  | [] => Config.callerTurn s.turnNo

/-- The input `keys` of this step (10_state R34). -/
def State.keys (s : State) : BitVec 16 := s.turn.keys

/-- The input `rnd` of this step (10_state R35). -/
def State.rnd (s : State) : Byte := s.turn.rnd

/-- The end of a turn: the `Tick` events that the caller issues before its next step, and on to the next
turn (60_exceptions R262, 10_state R41). -/
def State.endTurn (s : State) : State :=
  { s with
    dt := tickTimes s.turn.ticks s.dt
    st := tickTimes s.turn.ticks s.st
    turns := s.turns.tail
    turnNo := s.turnNo + 1 }

/-! ## The key wait -/

/-- The least `k` with `keys[k] = 1`; 0 when there is none (45_timers_keys R234). -/
def leastKey (keys : BitVec 16) : Nat := ((List.range 16).find? fun k => keys.getLsbD k).getD 0

/-- `AwaitCheck(t, keys)` (45_timers_keys R234): level-sensitive, the lowest key wins, `pc` advances when a
key is found. -/
def State.awaitCheck (t : Nibble) (s : State) : State :=
  if s.keys = 0#16 then s.setMode (.awaitingKey t)
  else (s.setReg t (BitVec.ofNat 8 (leastKey s.keys))).advance.setMode .running

/-! ## Fetch -/

/-- What a `Step` does before any effect, in the order of R257: a pending wait fetches nothing; else the
bounds of the fetch, then decode. -/
inductive Activity where
  | wait (t : Nibble)
  | run (i : Instr)
  | fail (f : Fault)
  deriving DecidableEq, Repr

/-- Fetch two bytes at `pc` and decode them (40_control_flow R120, 20_memory R62, R64). -/
def State.fetch (s : State) : Activity :=
  match s.readBlock s.pc.toNat 2 with
  | .error f => .fail f
  | .ok bs =>
    match decode bs with
    | .instr i => .run i
    | .reject _ => .fail .decodeFailure

/-- The opening of `Step(keys, rnd)` (40_control_flow R120). -/
def State.activity (s : State) : Activity :=
  match s.mode with
  | .awaitingKey t => .wait t
  | .running => s.fetch

/-- Store an instruction word where the next fetch reads it, and let the machine be `Running` so that it is
fetched. Nothing changes when no fetch is possible at `pc`. -/
def State.placeWord (s : State) (w : Word) : State :=
  match s.writeBlock s.pc.toNat (bytesOfWord w) with
  | .ok t => t.setMode .running
  | .error _ => s

end Sys2Proof.Machine
end

