-- ==== Sys2Proof/Machine/Flags.lean ====
section
/-! DEFINITION. The flag computations; VF = `V[15]` is the only flag (spec 10_state R23). Each is computed
from the operands before truncation (42_alu R160). -/

namespace Sys2Proof.Machine

/-- The index of VF (R23). -/
def vf : Nibble := 0xF#4

/-- A flag as the byte VF holds, 0 or 1 (R23). -/
def flagByte (f : Bool) : Byte := if f then 1#8 else 0#8

/-- Carry out of ADD: the exact sum exceeds 255 (42_alu R168). -/
def carryOut (a b : Byte) : Bool := 255 < a.toNat + b.toNat

/-- Not borrow of `a - b`: `a >= b` (42_alu R169, R171). -/
def notBorrow (a b : Byte) : Bool := b.toNat ≤ a.toNat

/-- The bit SHR shifts out (42_alu R170). -/
def shrOut (a : Byte) : Bool := a.getLsbD 0

/-- The bit SHL shifts out (42_alu R172). -/
def shlOut (a : Byte) : Bool := a.getLsbD 7

/-- The OPEN parameter VF_RESULT_WINS at the spec's default (D8, U9; C5 and rule R161 state that the flag is
written last). Log 5. -/
def vfResultWins : Bool := false

/-- The two writes of a flag-writing instruction: the result, then the flag, which wins when `x = 15`
(42_alu R161). -/
def State.writeResultFlag (s : State) (x : Nibble) (result : Byte) (flag : Bool) : State :=
  if vfResultWins then (s.setReg vf (flagByte flag)).setReg x result
  else (s.setReg x result).setReg vf (flagByte flag)

end Sys2Proof.Machine
end

