-- ==== Sys2Proof/Machine/Operands.lean ====
section
/-! DEFINITION. The operand forms: immediates, key and digit numbers, the font address, decimal digits,
the register block (spec 30_encoding R93). -/

namespace Sys2Proof.Machine

/-- `zext_16(nnn)`, the form of every address operand (R93). -/
def addrWord (nnn : Addr12) : Word := nnn.zeroExtend 16

/-- The number in the low four bits of `V[x]`: a key or a digit (41_skips R145, 43_index_memory R192, D13). -/
def lowNibble (v : Byte) : Nibble := v.extractLsb' 0 4

/-- `keys[k] = 1` for the key named by `V[x]` (41_skips R145, R146). -/
def State.keyDown (s : State) (x : Nibble) : Bool := s.keys.getLsbD (lowNibble (s.reg x)).toNat

/-- The glyph address `FONT_BASE + GLYPH_BYTES * d` (43_index_memory R192). -/
def glyphAddr (d : Nibble) : Nat := Config.fontBase + Config.glyphBytes * d.toNat

/-- Hundreds, tens, ones of a byte, the order in which LD B stores them (43_index_memory R193). -/
def decimalDigits (v : Byte) : List Byte :=
  [BitVec.ofNat 8 (v.toNat / 100), BitVec.ofNat 8 (v.toNat / 10 % 10), BitVec.ofNat 8 (v.toNat % 10)]

/-- `V[0]` to `V[x]`, in order (43_index_memory R194). -/
def State.regBlock (s : State) (x : Nibble) : List Byte := s.regs.toList.take (x.toNat + 1)

/-- Write a run of bytes to registers `k`, `k + 1`, ... (43_index_memory R195). -/
def loadRegs : Regs → Nat → List Byte → Regs
  | r, _, [] => r
  | r, k, b :: bs => loadRegs (r.setIfInBounds k b) (k + 1) bs

/-- The OPEN parameter LDM_ADVANCES_I at the spec's default (D6, U11; rules R194 and R195 state that `I` is
unchanged). Log 6. -/
def ldmAdvancesI : Bool := false

/-- What a block transfer of `V[0]` to `V[x]` does to `I` (R194, R195, D6). -/
def State.blockI (s : State) (x : Nibble) : State :=
  if ldmAdvancesI then s.setI (s.i + x.zeroExtend 16 + 1#16) else s

end Sys2Proof.Machine
end

