-- ==== Sys2Proof/Machine/Alu.lean ====
section
/-! DEFINITION. ALU and register instructions (spec 42_alu): 8-bit, unsigned, wrapping (R160); each ends
with `pc <- pc + 2` and raises no fault. -/

namespace Sys2Proof.Machine

/-- LD Vx, kk, R162. -/
def execLdImm (x : Nibble) (kk : Byte) (s : State) : Result := .next (s.setReg x kk).advance

/-- ADD Vx, kk, R163: no flag. -/
def execAddImm (x : Nibble) (kk : Byte) (s : State) : Result :=
  .next (s.setReg x (s.reg x + kk)).advance

/-- LD Vx, Vy, R164. -/
def execLdReg (x y : Nibble) (s : State) : Result := .next (s.setReg x (s.reg y)).advance

/-- OR Vx, Vy, R165: no flag effect. -/
def execOrReg (x y : Nibble) (s : State) : Result :=
  .next (s.setReg x (s.reg x ||| s.reg y)).advance

/-- AND Vx, Vy, R166: no flag effect. -/
def execAndReg (x y : Nibble) (s : State) : Result :=
  .next (s.setReg x (s.reg x &&& s.reg y)).advance

/-- XOR Vx, Vy, R167: no flag effect. -/
def execXorReg (x y : Nibble) (s : State) : Result :=
  .next (s.setReg x (s.reg x ^^^ s.reg y)).advance

/-- ADD Vx, Vy, R168: VF = carry out. -/
def execAddReg (x y : Nibble) (s : State) : Result :=
  .next (s.writeResultFlag x (s.reg x + s.reg y) (carryOut (s.reg x) (s.reg y))).advance

/-- SUB Vx, Vy, R169: VF = not borrow. -/
def execSubReg (x y : Nibble) (s : State) : Result :=
  .next (s.writeResultFlag x (s.reg x - s.reg y) (notBorrow (s.reg x) (s.reg y))).advance

/-- SHR Vx, R170: in place, zero fill, by one; `V[y]` is neither read nor written. -/
def execShr (x _y : Nibble) (s : State) : Result :=
  .next (s.writeResultFlag x (s.reg x >>> 1) (shrOut (s.reg x))).advance

/-- SUBN Vx, Vy, R171: `V[y] - V[x]`, VF = not borrow. -/
def execSubnReg (x y : Nibble) (s : State) : Result :=
  .next (s.writeResultFlag x (s.reg y - s.reg x) (notBorrow (s.reg y) (s.reg x))).advance

/-- SHL Vx, R172: in place, by one; `V[y]` is neither read nor written. -/
def execShl (x _y : Nibble) (s : State) : Result :=
  .next (s.writeResultFlag x (s.reg x <<< 1) (shlOut (s.reg x))).advance

/-- RND Vx, kk, R173: the draw of this step, masked. -/
def execRnd (x : Nibble) (kk : Byte) (s : State) : Result :=
  .next (s.setReg x (s.rnd &&& kk)).advance

end Sys2Proof.Machine
end

