-- ==== Sys2Proof/Machine/Control.lean ====
section
/-! DEFINITION. Control transfer (spec 40_control_flow): SYS, RET, JP, CALL, JP V0. -/

namespace Sys2Proof.Machine

/-- RET, R123: `pc <- stack[sp]`, `sp <- sp - 1`; the popped address is not validated here (D18). -/
def execRet (s : State) : Result :=
  match s.pop with
  | none => raise .stackUnderflow
  | some (w, t) => .next (t.setPc w)

/-- SYS nnn, R122: reserved, `raise DecodeFailure`. -/
def execSys (_nnn : Addr12) (_s : State) : Result := raise .decodeFailure

/-- JP nnn, R124. -/
def execJp (nnn : Addr12) (s : State) : Result := .next (s.setPc (addrWord nnn))

/-- CALL nnn, R125: saves `pc + 2` (C2). -/
def execCall (nnn : Addr12) (s : State) : Result :=
  match s.push (s.pc + 2#16) with
  | none => raise .stackOverflow
  | some t => .next (t.setPc (addrWord nnn))

/-- JP V0, nnn, R126: the exact sum is validated as an address, not masked (C7). -/
def execJpV0 (nnn : Addr12) (s : State) : Result :=
  if inRange ((s.reg 0#4).toNat + nnn.toNat) 1 then
    .next (s.setPc (BitVec.ofNat 16 ((s.reg 0#4).toNat + nnn.toNat)))
  else raise .memoryBounds

end Sys2Proof.Machine
end

