-- ==== Sys2Proof/Machine/Display.lean ====
section
/-! DEFINITION. The display instructions (spec 44_display). -/

namespace Sys2Proof.Machine

/-- CLS, R211: no flag effect. -/
def execCls (s : State) : Result := .next (s.setFb Framebuffer.clear).advance

/-- DRW Vx, Vy, n, R212: the coordinates are read before VF is written; VF is always written. With `n = 0`
nothing is read or drawn and VF becomes 0. -/
def execDrw (x y n : Nibble) (s : State) : Result :=
  match s.readBlock s.i.toNat n.toNat with
  | .error f => raise f
  | .ok bs =>
    let p := Canvas.drawRows { fb := s.fb, collision := false } bs (s.reg y).toNat (s.reg x).toNat
    .next ((s.setFb p.fb).setReg vf (flagByte p.collision)).advance

end Sys2Proof.Machine
end

