-- ==== Sys2Proof/Machine/IndexMemory.lean ====
section
/-! DEFINITION. Index register and memory instructions (spec 43_index_memory); each ends with
`pc <- pc + 2` unless its block is out of range. -/

namespace Sys2Proof.Machine

/-- LD I, nnn, R190. -/
def execLdI (nnn : Addr12) (s : State) : Result := .next (s.setI (addrWord nnn)).advance

/-- ADD I, Vx, R191: wraps modulo 65536, no flag, no fault (D10). -/
def execAddIVx (x : Nibble) (s : State) : Result :=
  .next (s.setI (s.i + (s.reg x).zeroExtend 16)).advance

/-- LD F, Vx, R192: computes an address and reads no memory. -/
def execLdFVx (x : Nibble) (s : State) : Result :=
  .next (s.setI (BitVec.ofNat 16 (glyphAddr (lowNibble (s.reg x))))).advance

/-- LD B, Vx, R193: three digits at `I`, `I + 1`, `I + 2`. -/
def execLdBVx (x : Nibble) (s : State) : Result :=
  match s.writeBlock s.i.toNat (decimalDigits (s.reg x)) with
  | .error f => raise f
  | .ok t => .next t.advance

/-- LD [I], Vx, R194: `V[0]` to `V[x]` at rising addresses from `I`. -/
def execLdMemVx (x : Nibble) (s : State) : Result :=
  match s.writeBlock s.i.toNat (s.regBlock x) with
  | .error f => raise f
  | .ok t => .next (t.blockI x).advance

/-- LD Vx, [I], R195: `V[0]` to `V[x]` from rising addresses from `I`. -/
def execLdVxMem (x : Nibble) (s : State) : Result :=
  match s.readBlock s.i.toNat (x.toNat + 1) with
  | .error f => raise f
  | .ok bs => .next ((s.setRegs (loadRegs s.regs 0 bs)).blockI x).advance

end Sys2Proof.Machine
end

