-- ==== Sys2Proof/Machine/Skips.lean ====
section
/-! DEFINITION. The conditional skips (spec 41_skips): they write `pc` and nothing else (R140). -/

namespace Sys2Proof.Machine

/-- SE Vx, kk, R141. -/
def execSeImm (x : Nibble) (kk : Byte) (s : State) : Result := .next (s.skipIf (s.reg x == kk))

/-- SNE Vx, kk, R142. -/
def execSneImm (x : Nibble) (kk : Byte) (s : State) : Result := .next (s.skipIf (s.reg x != kk))

/-- SE Vx, Vy, R143; the low nibble takes no part (R97). -/
def execSeReg (x y _n : Nibble) (s : State) : Result := .next (s.skipIf (s.reg x == s.reg y))

/-- SNE Vx, Vy, R144: the two-register comparison (C10); the low nibble takes no part (R97). -/
def execSneReg (x y _n : Nibble) (s : State) : Result :=
  .next (s.skipIf (s.reg x != s.reg y))

/-- SKP Vx, R145. -/
def execSkp (x : Nibble) (s : State) : Result := .next (s.skipIf (s.keyDown x))

/-- SKNP Vx, R146. -/
def execSknp (x : Nibble) (s : State) : Result := .next (s.skipIf (!s.keyDown x))

end Sys2Proof.Machine
end

