-- ==== Sys2Proof/Machine/TimersKeys.lean ====
section
/-! DEFINITION. Timer and keyboard instructions (spec 45_timers_keys). -/

namespace Sys2Proof.Machine

/-- LD Vx, DT, R230. -/
def execLdVxDt (x : Nibble) (s : State) : Result := .next (s.setReg x s.dt).advance

/-- LD Vx, K, R233: enters `AwaitingKey(x)` and makes the check in the same step (R234). -/
def execLdVxK (x : Nibble) (s : State) : Result :=
  .next ((s.setMode (.awaitingKey x)).awaitCheck x)

/-- LD DT, Vx, R231. -/
def execLdDtVx (x : Nibble) (s : State) : Result := .next (s.setDt (s.reg x)).advance

/-- LD ST, Vx, R232. -/
def execLdStVx (x : Nibble) (s : State) : Result := .next (s.setSt (s.reg x)).advance

end Sys2Proof.Machine
end

