-- ==== Sys2Proof/Machine/Step.lean ====
section
/-! DEFINITION. The step (spec 40_control_flow R120): one `Step` event on the inputs of the caller's present
turn, and then that turn's `Tick` events (log 1). -/

namespace Sys2Proof.Machine

/-- `Step(keys, rnd)` of R120. -/
def stepEvent (s : State) : Result :=
  match s.activity with
  | .wait t => .next (s.awaitCheck t)
  | .run i => exec i s
  | .fail f => raise f

/-- One step of the machine: the `Step` event, then the end of the caller's turn. -/
def step (s : State) : Host.Outcome State Fault Refusal := mapNext State.endTurn (stepEvent s)

/-- `s` with the instruction whose bits are `w` (numbered as the opcode table numbers them, the bits at and
above `nbits` zero) stored where `step` fetches its next instruction. -/
def State.withFetchWord (s : State) (nbits w : Nat) : State :=
  s.placeWord (BitVec.ofNat 16 (w % 2 ^ nbits))

end Sys2Proof.Machine
end

