-- ==== Sys2Proof/Machine/HostPort.lean ====
section
/-! DEFINITION. The host's side of the block: the program image, the font, and the outputs (spec
10_state R36, R37, 70_reset_and_hazards R294 to R297, 60_exceptions R264 to R268). -/

namespace Sys2Proof.Machine

/-- `Load(image)`, R296: at most 3584 bytes to 0x200 and up, `pc <- 0x200`; else ProgramTooLarge. -/
def State.load (s : State) (image : List Byte) : Result :=
  if image.length ≤ Config.maxImage then
    .next ((s.setMem (Memory.writeBytes s.mem Config.entry.toNat image)).setPc Config.entry)
  else raise .programTooLarge

/-- One write of the host before the run (R37, R295: "any memory byte and any register to any value of its
width", `sp` from 0 to 16 and `mode` one of its 17 values; 40_control_flow R123 has stack slots set by the host).
Log 18. -/
inductive HostWrite where
  /-- Memory byte `a`. -/
  | byte (a : Nat) (v : Byte)
  /-- General register `V[x]`. -/
  | reg (x : Nibble) (v : Byte)
  /-- Index register. -/
  | i (w : Word)
  /-- Program counter. -/
  | pc (w : Word)
  /-- Stack pointer. -/
  | sp (n : Fin 17)
  /-- Stack slot at index `k`, the spec's `stack[k + 1]` (log 14). -/
  | slot (k : Fin 16) (w : Word)
  /-- Delay timer. -/
  | dt (v : Byte)
  /-- Sound timer. -/
  | st (v : Byte)
  /-- Run state. -/
  | mode (m : Mode)
  deriving DecidableEq, Repr

/-- A host write (R37, R295). The spec has no case of an address above 4095 here; MODEL'S CHOICE: it fails as
MemoryBounds and writes nothing (log 18, DESIGN CHOICE). -/
def State.hostWrite (s : State) (w : HostWrite) : Result :=
  match w with
  | .byte a v =>
    match s.writeBlock a [v] with
    | .ok t => .next t
    | .error f => raise f
  | .reg x v => .next (s.setReg x v)
  | .i w => .next (s.setI w)
  | .pc w => .next (s.setPc w)
  | .sp n => .next (s.setSp n)
  | .slot k w => .next (s.setStack (s.stack.set k.val w k.isLt))
  | .dt v => .next (s.setDt v)
  | .st v => .next (s.setSt v)
  | .mode m => .next (s.setMode m)

/-- The host's writes one after another, up to the first that fails (R295). -/
def State.hostWrites (s : State) : List HostWrite → Result
  | [] => .next s
  | w :: ws =>
    match s.hostWrite w with
    | .next t => t.hostWrites ws
    | .fault f => .fault f
    | .refused r => .refused r

/-- The customary glyphs, five bytes a digit (93_implementation_defined G6, general knowledge). -/
def fontBytes : List Byte :=
  [0xF0, 0x90, 0x90, 0x90, 0xF0, 0x20, 0x60, 0x20, 0x20, 0x70,
   0xF0, 0x10, 0xF0, 0x80, 0xF0, 0xF0, 0x10, 0xF0, 0x10, 0xF0,
   0x90, 0x90, 0xF0, 0x10, 0x10, 0xF0, 0x80, 0xF0, 0x10, 0xF0,
   0xF0, 0x80, 0xF0, 0x90, 0xF0, 0xF0, 0x10, 0x20, 0x40, 0x40,
   0xF0, 0x90, 0xF0, 0x90, 0xF0, 0xF0, 0x90, 0xF0, 0x10, 0xF0,
   0xF0, 0x90, 0xF0, 0x90, 0x90, 0xE0, 0x90, 0xE0, 0x90, 0xE0,
   0xF0, 0x80, 0x80, 0x80, 0xF0, 0xE0, 0x90, 0x90, 0x90, 0xE0,
   0xF0, 0x80, 0xF0, 0x80, 0xF0, 0xF0, 0x80, 0xF0, 0x80, 0x80]

/-- A host that installs the customary font at FONT_BASE (R297); the block does not depend on it. -/
def State.installFont (s : State) : State :=
  s.setMem (Memory.writeBytes s.mem Config.fontBase fontBytes)

/-- Output `sound_on` (R36, R264). -/
def State.soundOn (s : State) : Bool := s.st != 0#8

/-- Output `awaiting_key` (R36). -/
def State.awaitingKey (s : State) : Bool := s.mode != .running

/-- The rows from the last to the first, as one number: row `r` weighs `2 ^ (64 * r)`. -/
def rowsToNat : List (BitVec 64) → Nat
  | [] => 0
  | r :: rs => r.toNat + 2 ^ 64 * rowsToNat rs

/-- Output `fb_out`: bit `64*r + c` is `fb[r][c]` (R36). -/
def State.fbOut (s : State) : BitVec 2048 := BitVec.ofNat 2048 (rowsToNat s.fb.toList)

/-- Output `step_result` (R36). -/
inductive StepResult where
  | ok
  | awaiting
  | fault (f : Fault)
  deriving DecidableEq, Repr

/-- `step_result` of an outcome of `Step` (R36, R120); none for a refusal, which no step gives. -/
def stepResult : Result → Option StepResult
  | .next s => some (if s.awaitingKey then .awaiting else .ok)
  | .fault f => some (.fault f)
  | .refused _ => none

/-- The codes of R250. -/
def Fault.code : Fault → Nat
  | .decodeFailure => 1
  | .memoryBounds => 2
  | .stackOverflow => 3
  | .stackUnderflow => 4
  | .programTooLarge => 5

end Sys2Proof.Machine
end

