-- ==== Sys2Proof/Safety.lean ====
section
/-! DEFINITION. The terms in which claims are stated: what stays the same, what the spec's tables say of each
instruction, what a good state and a safe run are. -/

namespace Sys2Proof.Safety

open Sys2Proof.Machine

/-- The pieces of state other than the general registers (spec 10_state R20), and the caller's turns. -/
inductive Part where
  | i | pc | sp | stack | dt | st | mem | fb | mode | caller
  deriving DecidableEq, Repr

/-- A piece of state reads the same in two states: memory byte by byte, the framebuffer pixel by pixel. -/
def Same : Part → State → State → Prop
  | .i, s, t => t.i = s.i
  | .pc, s, t => t.pc = s.pc
  | .sp, s, t => t.sp = s.sp
  | .stack, s, t => t.stack = s.stack
  | .dt, s, t => t.dt = s.dt
  | .st, s, t => t.st = s.st
  | .mem, s, t => ∀ a, Memory.read t.mem a = Memory.read s.mem a
  | .fb, s, t => ∀ r c, Framebuffer.pixel t.fb r c = Framebuffer.pixel s.fb r c
  | .mode, s, t => t.mode = s.mode
  | .caller, s, t => t.turns = s.turns ∧ t.turnNo = s.turnNo

/-- From `s` to `t` nothing outside `changed` changes, general registers apart. -/
def Frame (changed : List Part) (s t : State) : Prop := ∀ p, p ∉ changed → Same p s t

/-- From `s` to `t` no general register outside `changed` changes. -/
def RegsFrame (changed : List Nibble) (s t : State) : Prop := ∀ r, r ∉ changed → t.reg r = s.reg r

/-- The instruction at `s` completes in a state that meets `p`. -/
def Completes (i : Instr) (s : State) (p : State → Prop) : Prop := ∃ t, exec i s = .next t ∧ p t

/-- A completed skip (41_skips R140): `pc + 4` when the condition holds, else `pc + 2`, and nothing else. -/
def Skips (i : Instr) (s : State) (cond : Prop) : Prop :=
  Completes i s fun t =>
    (cond → t.pc = s.pc + 4#16) ∧ (¬cond → t.pc = s.pc + 2#16) ∧ RegsFrame [] s t ∧ Frame [.pc] s t

/-- Completes, leaving the number `v` in register `x` alone, and `pc + 2`. -/
def SetsReg (i : Instr) (s : State) (x : Nibble) (v : Nat) : Prop :=
  Completes i s fun t =>
    (t.reg x).toNat = v ∧ t.pc = s.pc + 2#16 ∧ RegsFrame [x] s t ∧ Frame [.pc] s t

/-- Completes, leaving the number `v` in register `x`, unless it is VF, and the flag in VF (42_alu R161). -/
def SetsRegAndFlag (i : Instr) (s : State) (x : Nibble) (v : Nat) (flag : Prop) : Prop :=
  Completes i s fun t =>
    (x ≠ 15#4 → (t.reg x).toNat = v) ∧ (flag → t.reg 15#4 = 1#8) ∧ (¬flag → t.reg 15#4 = 0#8) ∧
      t.pc = s.pc + 2#16 ∧ RegsFrame [x, 15#4] s t ∧ Frame [.pc] s t

/-- The byte at `pc + k`. -/
def codeByte (s : State) (k : Nat) : Byte := Memory.read s.mem (s.pc.toNat + k)

/-- The instruction word at `pc` (20_memory R62, R64). -/
def codeWord (s : State) : Word := codeByte s 0 ++ codeByte s 1

/-- What a fetch that finds the word `w` comes to (40_control_flow R120, 30_encoding R94). -/
def wordActivity (w : Word) : Activity :=
  match decodeWord w with
  | .instr i => .run i
  | .reject _ => .fail .decodeFailure

/-- The byte at `a` once `V[0]` to `V[x]` are stored from `I` up (43_index_memory R194). -/
def blockByte (s : State) (x : Nibble) (a : Nat) : Byte :=
  if s.i.toNat ≤ a ∧ a ≤ s.i.toNat + x.toNat then s.reg (BitVec.ofNat 4 (a - s.i.toNat))
  else Memory.read s.mem a

/-- The byte at `a` once the digits of `V[x]` are stored from `I` up (43_index_memory R193). -/
def digitByte (s : State) (x : Nibble) (a : Nat) : Byte :=
  if a = s.i.toNat then BitVec.ofNat 8 ((s.reg x).toNat / 100)
  else if a = s.i.toNat + 1 then BitVec.ofNat 8 ((s.reg x).toNat / 10 % 10)
  else if a = s.i.toNat + 2 then BitVec.ofNat 8 ((s.reg x).toNat % 10)
  else Memory.read s.mem a

/-- With `pc` at `w` the next fetch of `t` finds the word of the two bytes that `byteAt`
gives there, and a running machine does what that word says. -/
def FetchesWord (t : State) (w : Word) (byteAt : Nat → Byte) : Prop :=
  (t.setPc w).fetch = wordActivity (byteAt w.toNat ++ byteAt (w.toNat + 1)) ∧
    (t.mode = .running → (t.setPc w).activity = wordActivity (byteAt w.toNat ++ byteAt (w.toNat + 1)))

/-- The words of R96, which are no executing instruction. -/
def IllegalWord (w : Word) : Prop :=
  (w.toNat < 0x1000 ∧ w.toNat ≠ 0x00E0 ∧ w.toNat ≠ 0x00EE) ∨
  (w.toNat / 0x1000 = 0x8 ∧ w.toNat % 16 ∈ [0x8, 0x9, 0xA, 0xB, 0xC, 0xD, 0xF]) ∨
  (w.toNat / 0x1000 = 0xE ∧ w.toNat % 256 ∉ [0x9E, 0xA1]) ∨
  (w.toNat / 0x1000 = 0xF ∧ w.toNat % 256 ∉ [0x07, 0x0A, 0x15, 0x18, 0x1E, 0x29, 0x33, 0x55, 0x65])

/-- Column "w" of R22: the registers an instruction may write. -/
def writesReg (i : Instr) (r : Nibble) : Bool :=
  match i with
  | .cls => false
  | .ret => false
  | .sys _ => false
  | .jp _ => false
  | .call _ => false
  | .seImm _ _ => false
  | .sneImm _ _ => false
  | .seReg _ _ _ => false
  | .ldImm x _ => r == x
  | .addImm x _ => r == x
  | .ldReg x _ => r == x
  | .orReg x _ => r == x
  | .andReg x _ => r == x
  | .xorReg x _ => r == x
  | .addReg x _ => r == x || r == vf
  | .subReg x _ => r == x || r == vf
  | .shr x _ => r == x || r == vf
  | .subnReg x _ => r == x || r == vf
  | .shl x _ => r == x || r == vf
  | .sneReg _ _ _ => false
  | .ldI _ => false
  | .jpV0 _ => false
  | .rnd x _ => r == x
  | .drw _ _ _ => r == vf
  | .skp _ => false
  | .sknp _ => false
  | .ldVxDt x => r == x
  | .ldVxK x => r == x
  | .ldDtVx _ => false
  | .ldStVx _ => false
  | .addIVx _ => false
  | .ldFVx _ => false
  | .ldBVx _ => false
  | .ldMemVx _ => false
  | .ldVxMem x => r.toNat ≤ x.toNat

/-- Column "r" of R22: the registers an instruction reads. -/
def readsReg (i : Instr) (r : Nibble) : Bool :=
  match i with
  | .cls => false
  | .ret => false
  | .sys _ => false
  | .jp _ => false
  | .call _ => false
  | .seImm x _ => r == x
  | .sneImm x _ => r == x
  | .seReg x y _ => r == x || r == y
  | .ldImm _ _ => false
  | .addImm x _ => r == x
  | .ldReg _ y => r == y
  | .orReg x y => r == x || r == y
  | .andReg x y => r == x || r == y
  | .xorReg x y => r == x || r == y
  | .addReg x y => r == x || r == y
  | .subReg x y => r == x || r == y
  | .shr x _ => r == x
  | .subnReg x y => r == x || r == y
  | .shl x _ => r == x
  | .sneReg x y _ => r == x || r == y
  | .ldI _ => false
  | .jpV0 _ => r == 0#4
  | .rnd _ _ => false
  | .drw x y _ => r == x || r == y
  | .skp x => r == x
  | .sknp x => r == x
  | .ldVxDt _ => false
  | .ldVxK _ => false
  | .ldDtVx x => r == x
  | .ldStVx x => r == x
  | .addIVx x => r == x
  | .ldFVx x => r == x
  | .ldBVx x => r == x
  | .ldMemVx x => r.toNat ≤ x.toNat
  | .ldVxMem _ => false

/-- The `pc` of a skip, as an exact number (41_skips R140). -/
def skipPc (s : State) (cond : Bool) : Nat := s.pc.toNat + if cond then 4 else 2

/-- The table of R121: the `pc` after a step that does not fault, as an exact number. -/
def pcAfter (i : Instr) (s : State) : Nat :=
  match i with
  | .cls => s.pc.toNat + 2
  | .ret => if h : s.sp.val = 0 then s.pc.toNat else (s.stack[s.sp.val - 1]'(by omega)).toNat
  | .sys _ => s.pc.toNat
  | .jp nnn => nnn.toNat
  | .call nnn => nnn.toNat
  | .seImm x kk => skipPc s (s.reg x == kk)
  | .sneImm x kk => skipPc s (s.reg x != kk)
  | .seReg x y _ => skipPc s (s.reg x == s.reg y)
  | .ldImm _ _ => s.pc.toNat + 2
  | .addImm _ _ => s.pc.toNat + 2
  | .ldReg _ _ => s.pc.toNat + 2
  | .orReg _ _ => s.pc.toNat + 2
  | .andReg _ _ => s.pc.toNat + 2
  | .xorReg _ _ => s.pc.toNat + 2
  | .addReg _ _ => s.pc.toNat + 2
  | .subReg _ _ => s.pc.toNat + 2
  | .shr _ _ => s.pc.toNat + 2
  | .subnReg _ _ => s.pc.toNat + 2
  | .shl _ _ => s.pc.toNat + 2
  | .sneReg x y _ => skipPc s (s.reg x != s.reg y)
  | .ldI _ => s.pc.toNat + 2
  | .jpV0 nnn => (s.reg 0#4).toNat + nnn.toNat
  | .rnd _ _ => s.pc.toNat + 2
  | .drw _ _ _ => s.pc.toNat + 2
  | .skp x => skipPc s (s.keys.getLsbD ((s.reg x).toNat % 16))
  | .sknp x => skipPc s (!s.keys.getLsbD ((s.reg x).toNat % 16))
  | .ldVxDt _ => s.pc.toNat + 2
  | .ldVxK _ => if s.keys = 0#16 then s.pc.toNat else s.pc.toNat + 2
  | .ldDtVx _ => s.pc.toNat + 2
  | .ldStVx _ => s.pc.toNat + 2
  | .addIVx _ => s.pc.toNat + 2
  | .ldFVx _ => s.pc.toNat + 2
  | .ldBVx _ => s.pc.toNat + 2
  | .ldMemVx _ => s.pc.toNat + 2
  | .ldVxMem _ => s.pc.toNat + 2

/-- The cause of a fault of the instruction's own (60_exceptions R250, R257, 20_memory R67). -/
def FaultCause (i : Instr) (s : State) (f : Fault) : Prop :=
  match i with
  | .cls => False
  | .ret => f = .stackUnderflow ∧ s.sp.val = 0
  | .sys _ => f = .decodeFailure
  | .jp _ => False
  | .call _ => f = .stackOverflow ∧ s.sp.val = 16
  | .seImm _ _ => False
  | .sneImm _ _ => False
  | .seReg _ _ _ => False
  | .ldImm _ _ => False
  | .addImm _ _ => False
  | .ldReg _ _ => False
  | .orReg _ _ => False
  | .andReg _ _ => False
  | .xorReg _ _ => False
  | .addReg _ _ => False
  | .subReg _ _ => False
  | .shr _ _ => False
  | .subnReg _ _ => False
  | .shl _ _ => False
  | .sneReg _ _ _ => False
  | .ldI _ => False
  | .jpV0 nnn => f = .memoryBounds ∧ 4095 < (s.reg 0#4).toNat + nnn.toNat
  | .rnd _ _ => False
  | .drw _ _ n => f = .memoryBounds ∧ 1 ≤ n.toNat ∧ 4095 < s.i.toNat + n.toNat - 1
  | .skp _ => False
  | .sknp _ => False
  | .ldVxDt _ => False
  | .ldVxK _ => False
  | .ldDtVx _ => False
  | .ldStVx _ => False
  | .addIVx _ => False
  | .ldFVx _ => False
  | .ldBVx _ => f = .memoryBounds ∧ 4095 < s.i.toNat + 2
  | .ldMemVx x => f = .memoryBounds ∧ 4095 < s.i.toNat + x.toNat
  | .ldVxMem x => f = .memoryBounds ∧ 4095 < s.i.toNat + x.toNat

/-- A good state: memory canonical (the model's own form), `pc` and the stack slots within the bounds of R26, and
a pending wait standing at its own LD Vx,K (10_state R33). -/
def Inv (s : State) : Prop :=
  Memory.wf s.mem = true ∧ s.pc.toNat ≤ 4098 ∧
    (∀ (k : Nat) (h : k < 16), (s.stack[k]'h).toNat ≤ 4096) ∧
    ∀ t, s.mode = .awaitingKey t → s.fetch = .run (.ldVxK t)

/-- A safe run: however long, no step faults (60_exceptions R259: "no step faults" is something to prove). -/
def RunsSafely (s : State) : Prop := ∀ n, ∃ t, Host.Core.run Sys2Proof.core n s = .next t

/-- A program that has stopped by convention: the word at `pc` is a JP to itself (70_reset_and_hazards R301). -/
def Stopped (s : State) : Prop :=
  s.mode = .running ∧ s.pc.toNat ≤ 4094 ∧ (codeWord s).toNat = 0x1000 + s.pc.toNat

end Sys2Proof.Safety
end

