-- ==== Sys2Proof/Certificates/Slice0/Obligations.lean ====
section
/-! DEFINITION. The statements for the provers, from the spec's numbered rules. -/

open Sys2Proof Sys2Proof.Machine Sys2Proof.Safety

/-! ## Encoding (spec 30_encoding) -/

/-- Words written out from R95 decode to the instructions they stand for. -/
def Obligations.SpecWordsDecode : Prop :=
  decodeWord 0x00E0#16 = .instr .cls ∧ decodeWord 0x600A#16 = .instr (.ldImm 0#4 0x0A#8) ∧
    decodeWord 0x1300#16 = .instr (.jp 0x300#12) ∧ decodeWord 0x8014#16 = .instr (.addReg 0#4 1#4) ∧
    decodeWord 0x5127#16 = .instr (.seReg 1#4 2#4 7#4) ∧
    decodeWord 0xD123#16 = .instr (.drw 1#4 2#4 3#4) ∧ decodeWord 0xE49E#16 = .instr (.skp 4#4) ∧
    decodeWord 0xF265#16 = .instr (.ldVxMem 2#4)

/-- R91 and R9: the six fields, as numbers, of the word of any two bytes `b0 b1`. -/
def Obligations.FieldsOfTheWordOfTwoBytes : Prop :=
  ∀ b0 b1 : Byte,
    (wordOfBytes b0 b1).toNat = 256 * b0.toNat + b1.toNat ∧
    (fieldT (wordOfBytes b0 b1)).toNat = b0.toNat / 16 ∧
    (fieldX (wordOfBytes b0 b1)).toNat = b0.toNat % 16 ∧
    (fieldY (wordOfBytes b0 b1)).toNat = b1.toNat / 16 ∧
    (fieldN (wordOfBytes b0 b1)).toNat = b1.toNat % 16 ∧
    fieldKK (wordOfBytes b0 b1) = b1 ∧
    (fieldNNN (wordOfBytes b0 b1)).toNat = 256 * (b0.toNat % 16) + b1.toNat

/-- Decoding an encoded well-formed instruction gives it back, every operand at every value (R95). -/
def Obligations.DecodeOfEncodeIsTheInstruction : Prop :=
  ∀ i : Instr, i.wf = true → decodeWord (encode i) = .instr i

/-- A word that decodes is the word of the instruction it decodes to, which is well-formed: no bit of a word is
dropped. That a nonzero ignored field comes back is the model's own choice, which keeps that field in the
instruction (log 13, DESIGN CHOICE); R97 says only that its value is accepted and has no effect. -/
def Obligations.EncodeOfDecodeIsTheWord : Prop :=
  ∀ (w : Word) (i : Instr), decodeWord w = .instr i → encode i = w ∧ i.wf = true

/-- R95: a word decodes to an instruction of a row exactly when it matches that row's mask and pattern; where
SYS overlaps CLS and RET, these two win. -/
def Obligations.DecodeFollowsTheOpcodeMap : Prop :=
  (∀ (w : Word) (i : Instr), decodeWord w = .instr i → i.row.matchesWord w = true) ∧
    ∀ (w : Word) (j : Instr), j.row.matchesWord w = true →
      (j.row = (Instr.sys 0#12).row → w ≠ 0x00E0#16 ∧ w ≠ 0x00EE#16) →
      ∃ i, decodeWord w = .instr i ∧ i.row = j.row

/-- R251, R96, R94, R120: after a successful fetch the step raises DecodeFailure for the words of R96, for which no
instruction executes, and every other word decodes to one of the 34 executing instructions and runs it. That the
step ends with `State.endTurn` is the model's own choice (log 1, DESIGN CHOICE). -/
def Obligations.IllegalWordsRaiseDecodeFailure : Prop :=
  ∀ s : State, s.mode = .running → s.pc.toNat ≤ 4094 →
    (IllegalWord (codeWord s) → step s = .fault .decodeFailure) ∧
      (¬IllegalWord (codeWord s) →
        ∃ i, decodeWord (codeWord s) = .instr i ∧ (∀ nnn, i ≠ .sys nnn) ∧
          step s = mapNext State.endTurn (exec i s))

/-! ## The step (spec 40_control_flow R120, 60_exceptions R256 to R262) -/

/-- R120: when the two bytes at `pc` decode to a well-formed instruction, the step is that instruction's
meaning, and then the end of the caller's turn, which changes the timers by that turn's Ticks and takes the next
turn, no more. The turn is the model's own (log 1, DESIGN CHOICE). -/
def Obligations.StepRunsTheDecodedInstruction : Prop :=
  ∀ (s : State) (i : Instr), s.mode = .running → s.pc.toNat ≤ 4094 →
    decode [codeByte s 0, codeByte s 1] = .instr i → i.wf = true →
    step s = mapNext State.endTurn (exec i s) ∧
      ∀ t, exec i s = .next t →
        step s = .next t.endTurn ∧ RegsFrame [] t t.endTurn ∧
          Frame [.dt, .st, .caller] t t.endTurn ∧ t.endTurn.turns = t.turns.tail ∧
          t.endTurn.turnNo = t.turnNo + 1

/-- R257, R120, R67: a step faults exactly in these cases: first the fetch bounds, then decode, then the
instruction's own check; and a waiting machine never faults (R234). The order is an inference the spec marks as
its own (R257, "from R120, where fetch precedes decode precedes execution"). SYS stands among the instructions,
where R251 counts its DecodeFailure as decode's: the model's own choice (log 8, DESIGN CHOICE). -/
def Obligations.StepFaultsInPriorityOrder : Prop :=
  ∀ (s : State) (f : Fault), step s = .fault f ↔
    s.mode = .running ∧
      ((4094 < s.pc.toNat ∧ f = .memoryBounds) ∨
        (s.pc.toNat ≤ 4094 ∧ (∃ r, decodeWord (codeWord s) = .reject r) ∧ f = .decodeFailure) ∨
        (s.pc.toNat ≤ 4094 ∧ ∃ i, decodeWord (codeWord s) = .instr i ∧ FaultCause i s f))

/-- R259: a step that faults faults again for ever, whatever inputs are presented and however often the timers
tick in between. -/
def Obligations.FaultRepeatsWhateverTheInputs : Prop :=
  ∀ (s : State) (f : Fault) (d e : Byte) (ts : List Turn) (n : Nat), step s = .fault f →
    step { s with dt := d, st := e, turns := ts, turnNo := n } = .fault f

/-- No instruction and no step is refused: the model has a meaning for everything it decodes. -/
def Obligations.NothingIsRefused : Prop :=
  (∀ (i : Instr) (s : State) (r : Refusal), exec i s ≠ .refused r) ∧
    ∀ (s : State) (r : Refusal), step s ≠ .refused r

/-- R262: a tick takes one off each timer that is not zero and changes nothing else, in every mode. -/
def Obligations.TickDecrementsBothTimers : Prop :=
  ∀ s : State,
    (s.dt ≠ 0#8 → s.tick.dt.toNat + 1 = s.dt.toNat) ∧ (s.dt = 0#8 → s.tick.dt = 0#8) ∧
    (s.st ≠ 0#8 → s.tick.st.toNat + 1 = s.st.toNat) ∧ (s.st = 0#8 → s.tick.st = 0#8) ∧
    RegsFrame [] s s.tick ∧ Frame [.dt, .st] s s.tick

/-- R263: `k` ticks take `k` off a timer, floored at zero, and the end of a turn is its ticks one after the
other; so the delay timer rises in a step only by LD DT,Vx. The turn is the model's own (log 1, DESIGN CHOICE). -/
def Obligations.TimersFallByTheTicksOfTheTurn : Prop :=
  (∀ (s : State) (k : Nat), ((State.tick^[k]) s).dt.toNat = s.dt.toNat - k ∧
      ((State.tick^[k]) s).st.toNat = s.st.toNat - k) ∧
    (∀ s : State, s.endTurn =
      { (State.tick^[s.turn.ticks]) s with turns := s.turns.tail, turnNo := s.turnNo + 1 }) ∧
    ∀ s t : State, step s = .next t → (∀ x, s.activity ≠ .run (.ldDtVx x)) →
      t.dt.toNat ≤ s.dt.toNat

/-- R234: a `Step` in the wait fetches nothing and completes: with a key down the least such key goes to the
target register, `pc` advances, the machine runs and the result is Ok; with none the result is Awaiting and
nothing changes. That the model's step then ends the caller's turn is its own choice (log 1, DESIGN CHOICE). -/
def Obligations.WaitingStepChecksTheKeys : Prop :=
  ∀ (s : State) (r : Nibble), s.mode = .awaitingKey r →
    ∃ t, stepEvent s = .next t ∧ step s = .next t.endTurn ∧
      (s.keys = 0#16 → t = s ∧ stepResult (stepEvent s) = some .awaiting) ∧
      (s.keys ≠ 0#16 → stepResult (stepEvent s) = some .ok ∧ ∃ k, k < 16 ∧
        s.keys.getLsbD k = true ∧ (∀ j, j < k → s.keys.getLsbD j = false) ∧ (t.reg r).toNat = k ∧
        t.pc = s.pc + 2#16 ∧ t.mode = .running ∧ RegsFrame [r] s t ∧ Frame [.pc, .mode] s t)

/-- R267: the wait is entered by LD Vx,K alone, and left only with a key down. -/
def Obligations.OnlyLdVxKWaitsAndOnlyAKeyEndsIt : Prop :=
  (∀ (s t : State) (r : Nibble), s.mode = .running → step s = .next t → t.mode = .awaitingKey r →
      s.activity = .run (.ldVxK r) ∧ s.keys = 0#16) ∧
    ∀ (s t : State) (r : Nibble), s.mode = .awaitingKey r → step s = .next t →
      (t.mode = .running ↔ s.keys ≠ 0#16) ∧ (s.keys = 0#16 → t.mode = .awaitingKey r)

/-! ## Invariant and reset -/

/-- Every step from a good state gives a good state: memory canonical, `pc` and the stack slots within the
bounds of R26, a pending wait at its own LD Vx,K (R33). -/
def Obligations.StepKeepsTheGoodState : Prop :=
  ∀ s t : State, Inv s → step s = .next t → Inv t

/-- The state after reset is a good state. -/
def Obligations.ResetIsAGoodState : Prop := Inv State.reset

/-- R39: the value of every piece of state and of the outputs after reset. -/
def Obligations.ResetValuesOfAllState : Prop :=
  (∀ x, State.reset.reg x = 0#8) ∧ State.reset.i = 0#16 ∧ State.reset.pc = 0x200#16 ∧
    State.reset.sp.val = 0 ∧ (∀ (k : Nat) (h : k < 16), State.reset.stack[k]'h = 0#16) ∧
    State.reset.dt = 0#8 ∧ State.reset.st = 0#8 ∧
    (∀ a, Memory.read State.reset.mem a = 0#8) ∧
    (∀ r c, Framebuffer.pixel State.reset.fb r c = false) ∧ State.reset.mode = .running ∧
    State.reset.soundOn = false ∧ State.reset.awaitingKey = false ∧ State.reset.fbOut = 0#2048

/-! ## The host's side (spec 10_state R36, 70_reset_and_hazards R296, R297) -/

/-- R296: Load copies an image of at most 3584 bytes to 0x200 and up, sets `pc` and changes nothing else; a
longer one fails as ProgramTooLarge. -/
def Obligations.LoadCopiesTheImage : Prop :=
  ∀ (s : State) (image : List Byte),
    (3584 < image.length → s.load image = .fault .programTooLarge) ∧
      (image.length ≤ 3584 → ∃ t, s.load image = .next t ∧ t.pc = 0x200#16 ∧
        (∀ (k : Nat) (h : k < image.length), Memory.read t.mem (0x200 + k) = image[k]) ∧
        (∀ a, a < 0x200 ∨ 0x200 + image.length ≤ a → Memory.read t.mem a = Memory.read s.mem a) ∧
        RegsFrame [] s t ∧ Frame [.pc, .mem] s t)

/-- R37, R295: the host may set any memory byte and any register, `sp` and `mode` and a stack slot (R123) included,
to any value of its range, and a write changes that one thing alone. That writes are functions beside the step and
name these targets (logs 10, 18), that slot `k + 1` of the spec is index `k` (log 14), and that an address above
4095 fails as MemoryBounds (log 18) are the model's own choices (DESIGN CHOICE). -/
def Obligations.HostWritesSetOneByteOrRegister : Prop :=
  ∀ s : State,
    (∀ (a : Nat) (v : Byte), a ≤ 4095 → ∃ t, s.hostWrite (.byte a v) = .next t ∧
      (∀ b, Memory.read t.mem b = if b = a then v else Memory.read s.mem b) ∧
      RegsFrame [] s t ∧ Frame [.mem] s t) ∧
    (∀ (a : Nat) (v : Byte), 4095 < a → s.hostWrite (.byte a v) = .fault .memoryBounds) ∧
    (∀ (x : Nibble) (v : Byte), ∃ t, s.hostWrite (.reg x v) = .next t ∧ t.reg x = v ∧
      RegsFrame [x] s t ∧ Frame [] s t) ∧
    (∀ w : Word, ∃ t, s.hostWrite (.i w) = .next t ∧ t.i = w ∧ RegsFrame [] s t ∧ Frame [.i] s t) ∧
    (∀ w : Word, ∃ t, s.hostWrite (.pc w) = .next t ∧ t.pc = w ∧ RegsFrame [] s t ∧ Frame [.pc] s t) ∧
    (∀ n : Fin 17, ∃ t, s.hostWrite (.sp n) = .next t ∧ t.sp = n ∧ RegsFrame [] s t ∧
      Frame [.sp] s t) ∧
    (∀ (k : Fin 16) (w : Word), ∃ t, s.hostWrite (.slot k w) = .next t ∧
      (∀ (j : Nat) (h : j < 16), t.stack[j]'h = if j = k.val then w else s.stack[j]'h) ∧
      RegsFrame [] s t ∧ Frame [.stack] s t) ∧
    (∀ v : Byte, ∃ t, s.hostWrite (.dt v) = .next t ∧ t.dt = v ∧ RegsFrame [] s t ∧ Frame [.dt] s t) ∧
    (∀ v : Byte, ∃ t, s.hostWrite (.st v) = .next t ∧ t.st = v ∧ RegsFrame [] s t ∧ Frame [.st] s t) ∧
    ∀ m : Mode, ∃ t, s.hostWrite (.mode m) = .next t ∧ t.mode = m ∧ RegsFrame [] s t ∧
      Frame [.mode] s t

/-- R295: the writes of the host, from any state such as the one after reset, reach every launch state: any content
of memory, of every register and of the stack. The framebuffer and the caller's turns are no target of a host
write (log 18, DESIGN CHOICE). -/
def Obligations.HostWritesReachEveryLaunchState : Prop :=
  ∀ s t : State, (∀ a, 4095 < a → Memory.read t.mem a = Memory.read s.mem a) →
    ∃ ws u, s.hostWrites ws = .next u ∧ RegsFrame [] t u ∧ Frame [.fb, .caller] t u ∧
      Frame [.i, .pc, .sp, .stack, .dt, .st, .mem, .mode] s u

/-- R297 with R192: when the host has installed the font, LD F,Vx leaves `I` at the five bytes of the glyph of
the digit in the low four bits of `V[x]`. The glyph bytes are the family's (log 3). -/
def Obligations.LdFFindsTheInstalledGlyph : Prop :=
  ∀ (s : State) (x : Nibble), ∃ t, exec (.ldFVx x) s.installFont = .next t ∧
    ∀ k, k < 5 → Memory.read t.mem (t.i.toNat + k) =
      fontBytes.getD (5 * ((s.reg x).toNat % 16) + k) 0#8

/-- R36: the outputs as functions of the state and of the outcome of the step, whose fault is one of the four. -/
def Obligations.OutputsShowTheState : Prop :=
  (∀ (s : State) (r c : Nat), r < 32 → c < 64 →
      s.fbOut.getLsbD (64 * r + c) = Framebuffer.pixel s.fb r c) ∧
    (∀ s : State, (s.soundOn = true ↔ s.st ≠ 0#8) ∧ (s.awaitingKey = true ↔ s.mode ≠ .running)) ∧
    ∀ s : State, (∀ t, stepEvent s = .next t →
        (t.mode = .running → stepResult (stepEvent s) = some .ok) ∧
        (t.mode ≠ .running → stepResult (stepEvent s) = some .awaiting)) ∧
      ∀ f, stepEvent s = .fault f →
        stepResult (stepEvent s) = some (.fault f) ∧ f ≠ .programTooLarge

/-! ## Control transfer (spec 40_control_flow) -/

/-- R122: SYS raises DecodeFailure, always. -/
def Obligations.SysRaisesDecodeFailure : Prop :=
  ∀ (s : State) (nnn : Addr12), exec (.sys nnn) s = .fault .decodeFailure

/-- R124: JP completes from every state, with the target in `pc` and nothing else changed. -/
def Obligations.JpSetsPcAlone : Prop :=
  ∀ (s : State) (nnn : Addr12), Completes (.jp nnn) s fun t =>
    t.pc.toNat = nnn.toNat ∧ RegsFrame [] s t ∧ Frame [.pc] s t

/-- R126: JP V0 goes to the exact sum, or raises MemoryBounds when it is above 4095. -/
def Obligations.JpV0ValidatesItsTarget : Prop :=
  ∀ (s : State) (nnn : Addr12),
    ((s.reg 0#4).toNat + nnn.toNat ≤ 4095 → Completes (.jpV0 nnn) s fun t =>
      t.pc.toNat = (s.reg 0#4).toNat + nnn.toNat ∧ RegsFrame [] s t ∧ Frame [.pc] s t) ∧
    (4095 < (s.reg 0#4).toNat + nnn.toNat → exec (.jpV0 nnn) s = .fault .memoryBounds)

/-- R125: CALL below depth 16 stores `pc + 2` in the next slot, counts it and jumps; at depth 16 it raises
StackOverflow. Slot `k + 1` of the spec is index `k`. -/
def Obligations.CallPushesTheReturnAddress : Prop :=
  ∀ (s : State) (nnn : Addr12),
    (s.sp.val ≠ 16 → Completes (.call nnn) s fun t =>
      t.pc.toNat = nnn.toNat ∧ t.sp.val = s.sp.val + 1 ∧
        (∀ (k : Nat) (h : k < 16),
          t.stack[k]'h = if k = s.sp.val then s.pc + 2#16 else s.stack[k]'h) ∧
        RegsFrame [] s t ∧ Frame [.pc, .sp, .stack] s t) ∧
    (s.sp.val = 16 → exec (.call nnn) s = .fault .stackOverflow)

/-- R123: RET takes `pc` from the top slot, as it stands, and counts down; the slot keeps its value; with an
empty stack it raises StackUnderflow. -/
def Obligations.RetPopsTheReturnAddress : Prop :=
  ∀ s : State,
    (∀ (k : Nat) (h : k < 16), s.sp.val = k + 1 → Completes .ret s fun t =>
      t.pc = s.stack[k]'h ∧ t.sp.val = k ∧ RegsFrame [] s t ∧ Frame [.pc, .sp] s t) ∧
    (s.sp.val = 0 → exec .ret s = .fault .stackUnderflow)

/-- R127: CALL and then RET end at the instruction after the CALL with the stack pointer as before, and change
nothing else but the dead slot, which holds the return address. -/
def Obligations.RetUndoesCall : Prop :=
  ∀ (s t : State) (nnn : Addr12), exec (.call nnn) s = .next t → Completes .ret t fun u =>
    u.pc = s.pc + 2#16 ∧ u.sp = s.sp ∧
      (∀ (k : Nat) (h : k < 16),
        u.stack[k]'h = if k = s.sp.val then s.pc + 2#16 else s.stack[k]'h) ∧
      RegsFrame [] s u ∧ Frame [.pc, .stack] s u

/-- R140 to R146: each of the six skips completes from every state, on the full 8-bit registers or the key named
by the low four bits, and writes `pc` alone. -/
def Obligations.SkipsMovePcByFourOrTwo : Prop :=
  ∀ (s : State) (x y n : Nibble) (kk : Byte),
    Skips (.seImm x kk) s (s.reg x = kk) ∧ Skips (.sneImm x kk) s (s.reg x ≠ kk) ∧
    Skips (.seReg x y n) s (s.reg x = s.reg y) ∧ Skips (.sneReg x y n) s (s.reg x ≠ s.reg y) ∧
    Skips (.skp x) s (s.keys.getLsbD ((s.reg x).toNat % 16) = true) ∧
    Skips (.sknp x) s (s.keys.getLsbD ((s.reg x).toNat % 16) = false)

/-- R121: the `pc` after an instruction that completes, as an exact number, for every instruction fetched within
memory: no advance wraps. -/
def Obligations.PcAdvancesByTheTable : Prop :=
  ∀ (i : Instr) (s t : State), s.pc.toNat ≤ 4094 → exec i s = .next t → t.pc.toNat = pcAfter i s

/-! ## ALU (spec 42_alu) -/

/-- R162 to R167: loads, add-immediate and logic write `V[x]` and no flag; VF changes only as the destination. -/
def Obligations.LoadAndLogicWriteVxAlone : Prop :=
  ∀ (s : State) (x y : Nibble) (kk : Byte),
    SetsReg (.ldImm x kk) s x kk.toNat ∧
    SetsReg (.addImm x kk) s x (((s.reg x).toNat + kk.toNat) % 256) ∧
    SetsReg (.ldReg x y) s x (s.reg y).toNat ∧
    SetsReg (.orReg x y) s x ((s.reg x).toNat ||| (s.reg y).toNat) ∧
    SetsReg (.andReg x y) s x ((s.reg x).toNat &&& (s.reg y).toNat) ∧
    SetsReg (.xorReg x y) s x ((s.reg x).toNat ^^^ (s.reg y).toNat)

/-- R168, R169 (with R161): add and subtract wrap modulo 256 and leave carry or not-borrow of the original
operands in VF, last, so VF holds the flag when it is the destination too. -/
def Obligations.AddAndSubtractWriteTheFlagLast : Prop :=
  ∀ (s : State) (x y : Nibble),
    SetsRegAndFlag (.addReg x y) s x (((s.reg x).toNat + (s.reg y).toNat) % 256)
      (255 < (s.reg x).toNat + (s.reg y).toNat) ∧
    SetsRegAndFlag (.subReg x y) s x (((s.reg x).toNat + 256 - (s.reg y).toNat) % 256)
      ((s.reg y).toNat ≤ (s.reg x).toNat)

/-- R171 (with R161): SUBN is SUB with the operands exchanged. The flag is an inference the spec marks as its own
("[derived: from rule R169 with the operands exchanged]"). -/
def Obligations.SubnSubtractsTheOtherWay : Prop :=
  ∀ (s : State) (x y : Nibble),
    SetsRegAndFlag (.subnReg x y) s x (((s.reg y).toNat + 256 - (s.reg x).toNat) % 256)
      ((s.reg x).toNat ≤ (s.reg y).toNat)

/-- R170, R172: the shifts work on `V[x]` in place by one bit, zero filled, whatever `y` is, and leave the bit
shifted out in VF. -/
def Obligations.ShiftsLeaveTheBitShiftedOut : Prop :=
  ∀ (s : State) (x y : Nibble),
    SetsRegAndFlag (.shr x y) s x ((s.reg x).toNat / 2) ((s.reg x).toNat % 2 = 1) ∧
    SetsRegAndFlag (.shl x y) s x (2 * (s.reg x).toNat % 256) (128 ≤ (s.reg x).toNat)

/-- R173: RND leaves the draw masked by `kk`, so every bit that is 0 in `kk` is 0 in the result. -/
def Obligations.RndMasksTheDraw : Prop :=
  ∀ (s : State) (x : Nibble) (kk : Byte), Completes (.rnd x kk) s fun t =>
    t.reg x = s.rnd &&& kk ∧ (∀ k, kk.getLsbD k = false → (t.reg x).getLsbD k = false) ∧
      t.pc = s.pc + 2#16 ∧ RegsFrame [x] s t ∧ Frame [.pc] s t

/-! ## Index register and memory (spec 43_index_memory) -/

/-- R190 to R192: the three writers of `I` write it, advance `pc`, and touch no register, flag or memory. -/
def Obligations.IndexWritersWriteIAlone : Prop :=
  ∀ (s : State) (x : Nibble) (nnn : Addr12),
    (Completes (.ldI nnn) s fun t =>
      t.i.toNat = nnn.toNat ∧ t.pc = s.pc + 2#16 ∧ RegsFrame [] s t ∧ Frame [.pc, .i] s t) ∧
    (Completes (.addIVx x) s fun t =>
      t.i.toNat = (s.i.toNat + (s.reg x).toNat) % 65536 ∧ t.pc = s.pc + 2#16 ∧
        RegsFrame [] s t ∧ Frame [.pc, .i] s t) ∧
    (Completes (.ldFVx x) s fun t =>
      t.i.toNat = Config.fontBase + 5 * ((s.reg x).toNat % 16) ∧ t.i.toNat + 4 ≤ 0x1FF ∧
        t.pc = s.pc + 2#16 ∧ RegsFrame [] s t ∧ Frame [.pc, .i] s t)

/-- R193: LD B stores hundreds, tens and ones at `I`, `I + 1`, `I + 2` and nothing else; out of range it raises
MemoryBounds. -/
def Obligations.LdBStoresTheDecimalDigits : Prop :=
  ∀ (s : State) (x : Nibble),
    (s.i.toNat + 2 ≤ 4095 → Completes (.ldBVx x) s fun t =>
      (Memory.read t.mem s.i.toNat).toNat = (s.reg x).toNat / 100 ∧
        (Memory.read t.mem (s.i.toNat + 1)).toNat = (s.reg x).toNat / 10 % 10 ∧
        (Memory.read t.mem (s.i.toNat + 2)).toNat = (s.reg x).toNat % 10 ∧
        (∀ a, a < s.i.toNat ∨ s.i.toNat + 2 < a → Memory.read t.mem a = Memory.read s.mem a) ∧
        t.pc = s.pc + 2#16 ∧ RegsFrame [] s t ∧ Frame [.pc, .mem] s t) ∧
    (4095 < s.i.toNat + 2 → exec (.ldBVx x) s = .fault .memoryBounds)

/-- R194: LD [I],Vx stores `V[0]` to `V[x]` from `I` up and nothing else, `I` unchanged; out of range it raises
MemoryBounds. -/
def Obligations.LdMemStoresTheRegisterBlock : Prop :=
  ∀ (s : State) (x : Nibble),
    (s.i.toNat + x.toNat ≤ 4095 → Completes (.ldMemVx x) s fun t =>
      (∀ k : Nibble, k.toNat ≤ x.toNat → Memory.read t.mem (s.i.toNat + k.toNat) = s.reg k) ∧
        (∀ a, a < s.i.toNat ∨ s.i.toNat + x.toNat < a →
          Memory.read t.mem a = Memory.read s.mem a) ∧
        t.pc = s.pc + 2#16 ∧ RegsFrame [] s t ∧ Frame [.pc, .mem] s t) ∧
    (4095 < s.i.toNat + x.toNat → exec (.ldMemVx x) s = .fault .memoryBounds)

/-- R195: LD Vx,[I] loads `V[0]` to `V[x]` from `I` up, the registers above `x` and `I` unchanged; out of range
it raises MemoryBounds. -/
def Obligations.LdVxMemLoadsTheRegisterBlock : Prop :=
  ∀ (s : State) (x : Nibble),
    (s.i.toNat + x.toNat ≤ 4095 → Completes (.ldVxMem x) s fun t =>
      (∀ k : Nibble, t.reg k =
        if k.toNat ≤ x.toNat then Memory.read s.mem (s.i.toNat + k.toNat) else s.reg k) ∧
        t.pc = s.pc + 2#16 ∧ Frame [.pc] s t) ∧
    (4095 < s.i.toNat + x.toNat → exec (.ldVxMem x) s = .fault .memoryBounds)

/-- R71: a fetch at any address, after LD [I],Vx or LD B,Vx has completed, finds what the store left there: the
stored bytes where it stored, and what memory held before everywhere else. The address may be that of the
storing instruction itself. R71 marks the rule as the spec's own inference ("from rule R62, rule R69"). -/
def Obligations.StoredBytesAreFetchedAtOnce : Prop :=
  ∀ (s t : State) (x : Nibble) (w : Word), w.toNat ≤ 4094 →
    (exec (.ldMemVx x) s = .next t → FetchesWord t w (blockByte s x)) ∧
    (exec (.ldBVx x) s = .next t → FetchesWord t w (digitByte s x))

/-! ## Display (spec 44_display) -/

/-- R211: CLS turns every pixel off and touches nothing else. -/
def Obligations.ClsClearsEveryPixel : Prop :=
  ∀ s : State, Completes .cls s fun t =>
    (∀ r c, Framebuffer.pixel t.fb r c = false) ∧ t.pc = s.pc + 2#16 ∧ RegsFrame [] s t ∧
      Frame [.pc, .fb] s t

/-- R212: DRW XORs each sprite bit onto its wrapped pixel, leaves every other pixel, and leaves the collision in
VF; out of range it raises MemoryBounds. That `n = 0` sets VF to 0 is an inference the spec marks as its own
(R212, "the loops are empty and the document's 'else 0' applies"). -/
def Obligations.DrwXorsTheSprite : Prop :=
  ∀ (s : State) (x y n : Nibble),
    ((n.toNat = 0 ∨ s.i.toNat + n.toNat - 1 ≤ 4095) → Completes (.drw x y n) s fun t =>
      (∀ row col, row < n.toNat → col < 8 →
        Framebuffer.pixel t.fb ((s.reg y).toNat + row) ((s.reg x).toNat + col) =
          (Framebuffer.pixel s.fb ((s.reg y).toNat + row) ((s.reg x).toNat + col) ^^
            (Memory.read s.mem (s.i.toNat + row)).getLsbD (7 - col))) ∧
      (∀ r c, (∀ row col, row < n.toNat → col < 8 →
          ¬(((s.reg y).toNat + row) % 32 = r % 32 ∧ ((s.reg x).toNat + col) % 64 = c % 64)) →
        Framebuffer.pixel t.fb r c = Framebuffer.pixel s.fb r c) ∧
      (t.reg 15#4 = 1#8 ∨ t.reg 15#4 = 0#8) ∧
      (t.reg 15#4 = 1#8 ↔ ∃ row col, row < n.toNat ∧ col < 8 ∧
        (Memory.read s.mem (s.i.toNat + row)).getLsbD (7 - col) = true ∧
        Framebuffer.pixel s.fb ((s.reg y).toNat + row) ((s.reg x).toNat + col) = true) ∧
      t.pc = s.pc + 2#16 ∧ RegsFrame [15#4] s t ∧ Frame [.pc, .fb] s t) ∧
    (1 ≤ n.toNat → 4095 < s.i.toNat + n.toNat - 1 →
      exec (.drw x y n) s = .fault .memoryBounds)

/-- R213(b): the same sprite drawn twice at the same place restores the framebuffer, and VF after the second
draw is 1 unless every 1 bit of the sprite fell on a pixel already on before the first. VF as a coordinate is
left out, as the rule leaves it out: the first draw rewrites it. -/
def Obligations.DrawingTwiceRestoresTheFramebuffer : Prop :=
  ∀ (s t : State) (x y n : Nibble), x ≠ 15#4 → y ≠ 15#4 → exec (.drw x y n) s = .next t →
    Completes (.drw x y n) t fun u =>
      u.fb = s.fb ∧
        (u.reg 15#4 = 1#8 ↔ ∃ row col, row < n.toNat ∧ col < 8 ∧
          (Memory.read s.mem (s.i.toNat + row)).getLsbD (7 - col) = true ∧
          Framebuffer.pixel s.fb ((s.reg y).toNat + row) ((s.reg x).toNat + col) = false)

/-! ## Timers and keys (spec 45_timers_keys) -/

/-- R230 to R232: the timer instructions copy between `V[x]` and a timer, with the sound output following the
sound timer at once. -/
def Obligations.TimerInstructionsCopyTheTimers : Prop :=
  ∀ (s : State) (x : Nibble),
    SetsReg (.ldVxDt x) s x s.dt.toNat ∧
    (Completes (.ldDtVx x) s fun t =>
      t.dt = s.reg x ∧ t.pc = s.pc + 2#16 ∧ RegsFrame [] s t ∧ Frame [.pc, .dt] s t) ∧
    (Completes (.ldStVx x) s fun t =>
      t.st = s.reg x ∧ (t.soundOn = true ↔ s.reg x ≠ 0#8) ∧ t.pc = s.pc + 2#16 ∧
        RegsFrame [] s t ∧ Frame [.pc, .st] s t)

/-- R233: LD Vx,K with a key down completes in its own step with the least key in `V[x]`; with none down it
leaves the machine waiting for register `x` with `pc` still at the instruction and nothing else changed. -/
def Obligations.LdVxKTakesAKeyOrWaits : Prop :=
  ∀ (s : State) (x : Nibble),
    (s.keys ≠ 0#16 → Completes (.ldVxK x) s fun t =>
      (∃ k, k < 16 ∧ s.keys.getLsbD k = true ∧ (∀ j, j < k → s.keys.getLsbD j = false) ∧
        (t.reg x).toNat = k) ∧ t.pc = s.pc + 2#16 ∧ t.mode = .running ∧
        stepResult (.next t) = some .ok ∧ RegsFrame [x] s t ∧ Frame [.pc, .mode] s t) ∧
    (s.keys = 0#16 → Completes (.ldVxK x) s fun t =>
      t.mode = .awaitingKey x ∧ t.awaitingKey = true ∧ stepResult (.next t) = some .awaiting ∧
        RegsFrame [] s t ∧ Frame [.mode] s t)

/-! ## Rules over every instruction -/

/-- R22, the written half of its table: an instruction that completes changes no register outside it. -/
def Obligations.RegistersWrittenAreThoseOfTheTable : Prop :=
  ∀ (i : Instr) (s t : State) (r : Nibble), exec i s = .next t → writesReg i r = false →
    t.reg r = s.reg r

/-- R22, the read half of its table: a register an instruction neither reads nor writes does not touch its
outcome. -/
def Obligations.RegistersReadAreThoseOfTheTable : Prop :=
  ∀ (i : Instr) (s : State) (r : Nibble) (v : Byte), readsReg i r = false → writesReg i r = false →
    exec i (s.setReg r v) = mapNext (fun t => t.setReg r v) (exec i s)

/-- R60, R73, R75: the spaces are separate. Memory is touched by DRW, LD B, LD [I] and LD Vx,[I] alone, the
framebuffer by CLS and DRW alone, the stack by CALL and RET alone; every other instruction neither reads nor
writes the space. -/
def Obligations.StorageSpacesAreSeparate : Prop :=
  ∀ (i : Instr) (s : State),
    ((∀ x y n, i ≠ .drw x y n) → (∀ x, i ≠ .ldBVx x ∧ i ≠ .ldMemVx x ∧ i ≠ .ldVxMem x) →
      ∀ m : Memory, exec i (s.setMem m) = mapNext (fun t => t.setMem m) (exec i s)) ∧
    (i ≠ .cls → (∀ x y n, i ≠ .drw x y n) →
      ∀ f : Framebuffer, exec i (s.setFb f) = mapNext (fun t => t.setFb f) (exec i s)) ∧
    (i ≠ .ret → (∀ nnn, i ≠ .call nnn) →
      ∀ (p : Fin 17) (k : Vector Word 16), exec i { s with sp := p, stack := k } =
        mapNext (fun t => { t with sp := p, stack := k }) (exec i s))

/-- R34, R35: no instruction but SKP, SKNP, LD Vx,K and RND depends on the caller's inputs; the first three
depend on `keys` alone, and RND on `rnd` alone. That the inputs stand in fields of the state is the model's own
choice (log 1, DESIGN CHOICE). -/
def Obligations.InputsAreReadByFourInstructions : Prop :=
  ∀ (i : Instr) (s : State) (ts : List Turn) (n : Nat),
    (s.keys = { s with turns := ts, turnNo := n }.keys ∨
      ∀ x, i ≠ .skp x ∧ i ≠ .sknp x ∧ i ≠ .ldVxK x) →
    (s.rnd = { s with turns := ts, turnNo := n }.rnd ∨ ∀ x kk, i ≠ .rnd x kk) →
    exec i { s with turns := ts, turnNo := n } =
      mapNext (fun t => { t with turns := ts, turnNo := n }) (exec i s)

/-- R27, R28: the stack pointer goes up by one by CALL and down by one by RET, and no other instruction moves it;
a CALL changes only the slot it pushes to, and no other instruction changes a slot. -/
def Obligations.OnlyCallAndRetMoveTheStackPointer : Prop :=
  ∀ (i : Instr) (s t : State), exec i s = .next t →
    ((∃ nnn, i = .call nnn) → t.sp.val = s.sp.val + 1) ∧ (i = .ret → t.sp.val + 1 = s.sp.val) ∧
      ((∀ nnn, i ≠ .call nnn) → i ≠ .ret → t.sp = s.sp) ∧
      (∀ (k : Nat) (h : k < 16), k ≠ s.sp.val → t.stack[k]'h = s.stack[k]'h) ∧
      ((∀ nnn, i ≠ .call nnn) → t.stack = s.stack)

/-- R301(c): a JP to its own address is a fixed point of the `Step` event: it changes nothing. The model's step
then ends the caller's turn, which lowers the timers by the turn's Ticks and takes the next turn, and leaves the
machine so stopped; the turn is the model's own choice (log 1, DESIGN CHOICE). -/
def Obligations.AStoppedProgramStaysStopped : Prop :=
  ∀ s : State, Stopped s → stepEvent s = .next s ∧ step s = .next s.endTurn ∧ Stopped s.endTurn
end

