-- ==== Sys2Proof/Laws/Decode.lean ====
section
/-! SUPPORT. The fields of each format (spec 30_encoding R91, R92). -/

namespace Sys2Proof

@[simp] theorem fieldT_wordNNN (t : Nibble) (nnn : Addr12) :
    fieldT (wordNNN t nnn) = t := by
  apply BitVec.eq_of_getLsbD_eq
  intro i hi
  simp only [fieldT, wordNNN, BitVec.getLsbD_extractLsb', BitVec.getLsbD_append]
  interval_cases i <;> simp

@[simp] theorem fieldNNN_wordNNN (t : Nibble) (nnn : Addr12) :
    fieldNNN (wordNNN t nnn) = nnn := by
  apply BitVec.eq_of_getLsbD_eq
  intro i hi
  simp only [fieldNNN, wordNNN, BitVec.getLsbD_extractLsb', BitVec.getLsbD_append]
  interval_cases i <;> simp

@[simp] theorem fieldT_wordXKK (t x : Nibble) (kk : Byte) :
    fieldT (wordXKK t x kk) = t := by
  apply BitVec.eq_of_getLsbD_eq
  intro i hi
  simp only [fieldT, wordXKK, BitVec.getLsbD_extractLsb', BitVec.getLsbD_append]
  interval_cases i <;> simp

@[simp] theorem fieldX_wordXKK (t x : Nibble) (kk : Byte) :
    fieldX (wordXKK t x kk) = x := by
  apply BitVec.eq_of_getLsbD_eq
  intro i hi
  simp only [fieldX, wordXKK, BitVec.getLsbD_extractLsb', BitVec.getLsbD_append]
  interval_cases i <;> simp

@[simp] theorem fieldKK_wordXKK (t x : Nibble) (kk : Byte) :
    fieldKK (wordXKK t x kk) = kk := by
  apply BitVec.eq_of_getLsbD_eq
  intro i hi
  simp only [fieldKK, wordXKK, BitVec.getLsbD_extractLsb', BitVec.getLsbD_append]
  interval_cases i <;> simp

@[simp] theorem fieldT_wordXYN (t x y n : Nibble) :
    fieldT (wordXYN t x y n) = t := by
  apply BitVec.eq_of_getLsbD_eq
  intro i hi
  simp only [fieldT, wordXYN, BitVec.getLsbD_extractLsb', BitVec.getLsbD_append]
  interval_cases i <;> simp

@[simp] theorem fieldX_wordXYN (t x y n : Nibble) :
    fieldX (wordXYN t x y n) = x := by
  apply BitVec.eq_of_getLsbD_eq
  intro i hi
  simp only [fieldX, wordXYN, BitVec.getLsbD_extractLsb', BitVec.getLsbD_append]
  interval_cases i <;> simp

@[simp] theorem fieldY_wordXYN (t x y n : Nibble) :
    fieldY (wordXYN t x y n) = y := by
  apply BitVec.eq_of_getLsbD_eq
  intro i hi
  simp only [fieldY, wordXYN, BitVec.getLsbD_extractLsb', BitVec.getLsbD_append]
  interval_cases i <;> simp

@[simp] theorem fieldN_wordXYN (t x y n : Nibble) :
    fieldN (wordXYN t x y n) = n := by
  apply BitVec.eq_of_getLsbD_eq
  intro i hi
  simp only [fieldN, wordXYN, BitVec.getLsbD_extractLsb', BitVec.getLsbD_append]
  interval_cases i <;> simp

/-- A word is put together again from its fields (R91: the fields overlap, `kk = y n` and `nnn = x y n`). -/
theorem wordNNN_fields (op : Word) : wordNNN (fieldT op) (fieldNNN op) = op := by
  apply BitVec.eq_of_getLsbD_eq
  intro i hi
  simp only [fieldT, fieldNNN, wordNNN, BitVec.getLsbD_extractLsb', BitVec.getLsbD_append]
  interval_cases i <;> simp

theorem wordXKK_fields (op : Word) : wordXKK (fieldT op) (fieldX op) (fieldKK op) = op := by
  apply BitVec.eq_of_getLsbD_eq
  intro i hi
  simp only [fieldT, fieldX, fieldKK, wordXKK, BitVec.getLsbD_extractLsb', BitVec.getLsbD_append]
  interval_cases i <;> simp

theorem wordXYN_fields (op : Word) :
    wordXYN (fieldT op) (fieldX op) (fieldY op) (fieldN op) = op := by
  apply BitVec.eq_of_getLsbD_eq
  intro i hi
  simp only [fieldT, fieldX, fieldY, fieldN, wordXYN, BitVec.getLsbD_extractLsb',
    BitVec.getLsbD_append]
  interval_cases i <;> simp

/-- The two bytes of a word, big-endian, are the word (20_memory R64). -/
theorem decode_bytesOfWord (w : Word) : decode (bytesOfWord w) = decodeWord w := by
  have : wordOfBytes (w.extractLsb' 8 8) (w.extractLsb' 0 8) = w := by
    apply BitVec.eq_of_getLsbD_eq
    intro i hi
    simp only [wordOfBytes, BitVec.getLsbD_extractLsb', BitVec.getLsbD_append]
    interval_cases i <;> simp
  simp [decode, bytesOfWord, this]

end Sys2Proof
end

