-- ==== Sys2Proof/Laws/Framebuffer.lean ====
section
/-! SUPPORT. What the framebuffer operations do, pixel by pixel. -/

namespace Sys2Proof.Machine

/-- Coordinates wrap on both axes (20_memory R74). -/
theorem pixel_wrap (f : Framebuffer) (r c : Nat) :
    Framebuffer.pixel f (r % 32) (c % 64) = Framebuffer.pixel f r c := by
  simp [Framebuffer.pixel]

/-- Inverting a pixel inverts that one and leaves every other. -/
theorem pixel_flip (f : Framebuffer) (r c r' c' : Nat) :
    Framebuffer.pixel (Framebuffer.flip f r c) r' c' =
      (Framebuffer.pixel f r' c' ^^ decide (r' % 32 = r % 32 ∧ c' % 64 = c % 64)) := by
  unfold Framebuffer.pixel Framebuffer.flip
  simp only [Vector.getElem_set]
  by_cases hr : r % 32 = r' % 32
  · have hc : c' % 64 < 64 := Nat.mod_lt _ (by decide)
    simp only [hr, if_true, BitVec.getLsbD_xor, BitVec.getLsbD_twoPow]
    by_cases hcc : c % 64 = c' % 64
    · simp [hcc, hc]
    · simp [hcc, Ne.symm hcc]
  · simp [hr, Ne.symm hr]

@[simp] theorem pixel_clear (r c : Nat) : Framebuffer.pixel Framebuffer.clear r c = false := by
  simp [Framebuffer.pixel, Framebuffer.clear]

/-- Two framebuffers with the same pixels are equal. -/
theorem framebuffer_ext (f g : Framebuffer)
    (h : ∀ r c, r < 32 → c < 64 → Framebuffer.pixel f r c = Framebuffer.pixel g r c) : f = g := by
  apply Vector.ext
  intro r hr
  apply BitVec.eq_of_getLsbD_eq
  intro c hc
  have := h r c hr hc
  simpa [Framebuffer.pixel, Nat.mod_eq_of_lt hr, Nat.mod_eq_of_lt hc] using this

/-- Plotting a bit: that pixel is XORed with it, the others stay, and the collision remembers a pixel
turned off (44_display R212). -/
theorem pixel_plot (p : Canvas) (b : Bool) (r c r' c' : Nat) :
    Framebuffer.pixel (p.plot b r c).fb r' c' =
      (Framebuffer.pixel p.fb r' c' ^^ (b && decide (r' % 32 = r % 32 ∧ c' % 64 = c % 64))) := by
  cases b <;> simp [Canvas.plot, pixel_flip]

theorem collision_plot (p : Canvas) (b : Bool) (r c : Nat) :
    (p.plot b r c).collision = (p.collision || (b && Framebuffer.pixel p.fb r c)) := by
  cases b <;> simp [Canvas.plot]

end Sys2Proof.Machine
end

