-- ==== Sys2Proof/Laws/Memory.lean ====
section
/-! SUPPORT. What the memory operations do: reading after writing, and the canonical form they keep. -/

namespace Sys2Proof.Machine

/-! ### Reading after writing, in every memory, canonical or not -/

@[simp] theorem read_nil (a : Nat) : Memory.read [] a = 0#8 := rfl

theorem read_erase (m : Memory) (a b : Nat) :
    Memory.read (Memory.erase m a) b = if b = a then 0#8 else Memory.read m b := by
  induction m with
  | nil => simp [Memory.erase]
  | cons c m ih =>
    unfold Memory.erase
    split
    · rename_i h
      rw [ih]
      split
      · rfl
      · rename_i hb
        have : c.1 ≠ b := fun e => hb (e ▸ h)
        simp [Memory.read, this]
    · rename_i h
      simp only [Memory.read, ih]
      by_cases hc : c.1 = b
      · have : b ≠ a := fun e => h (hc.trans e)
        simp [hc, this]
      · simp [hc]

theorem read_insert (m : Memory) (a b : Nat) (v : Byte) (h : Memory.read m a = 0#8)
    (hn : ∀ c ∈ m, c.1 ≠ a) :
    Memory.read (Memory.insert m a v) b = if b = a then v else Memory.read m b := by
  induction m with
  | nil =>
    by_cases hb : b = a
    · simp [Memory.insert, Memory.read, hb]
    · simp [Memory.insert, Memory.read, Memory.unlisted, hb, Ne.symm hb]
  | cons c m ih =>
    have hca : c.1 ≠ a := hn c (by simp)
    unfold Memory.insert
    split
    · by_cases hb : b = a
      · simp [Memory.read, hb]
      · simp [Memory.read, hb, Ne.symm hb]
    · have h' : Memory.read m a = 0#8 := by simpa [Memory.read, hca] using h
      simp only [Memory.read, ih h' fun d hd => hn d (by simp [hd])]
      by_cases hb : c.1 = b
      · have : b ≠ a := fun e => hca (hb.trans e)
        simp [hb, this]
      · simp [hb]

theorem erase_not_mem (m : Memory) (a : Nat) : ∀ c ∈ Memory.erase m a, c.1 ≠ a := by
  induction m with
  | nil => simp [Memory.erase]
  | cons c m ih =>
    unfold Memory.erase
    split
    · exact ih
    · intro d hd
      rcases List.mem_cons.1 hd with rfl | hd
      · assumption
      · exact ih d hd

/-- A read after a write gives the value written; every other address reads as before (20_memory R66). -/
theorem read_write (m : Memory) (a b : Nat) (v : Byte) :
    Memory.read (Memory.write m a v) b = if b = a then v else Memory.read m b := by
  unfold Memory.write
  split
  · rename_i h
    rw [read_erase, h]; rfl
  · rw [read_insert _ _ _ _ (by simp [read_erase]) (erase_not_mem m a), read_erase]
    split <;> rfl

@[simp] theorem length_readBytes (m : Memory) (a n : Nat) : (Memory.readBytes m a n).length = n := by
  induction n generalizing a with
  | zero => rfl
  | succ n ih => simp [Memory.readBytes, ih]

theorem getElem_readBytes (m : Memory) (a n k : Nat) (h : k < (Memory.readBytes m a n).length) :
    (Memory.readBytes m a n)[k] = Memory.read m (a + k) := by
  induction n generalizing a k with
  | zero => simp [Memory.readBytes] at h
  | succ n ih =>
    cases k with
    | zero => rfl
    | succ k =>
      simp only [Memory.readBytes, List.getElem_cons_succ]
      rw [ih]
      congr 1; omega

/-- A run of bytes written from `a`: inside the run the bytes, outside it the memory as before. -/
theorem read_writeBytes (m : Memory) (a b : Nat) (bs : List Byte) :
    Memory.read (Memory.writeBytes m a bs) b =
      if a ≤ b then bs.getD (b - a) (Memory.read m b) else Memory.read m b := by
  induction bs generalizing m a with
  | nil => simp [Memory.writeBytes]
  | cons v bs ih =>
    simp only [Memory.writeBytes, ih, read_write]
    by_cases h1 : a + 1 ≤ b
    · have h2 : a ≤ b := by omega
      have h3 : b ≠ a := by omega
      obtain ⟨k, hk⟩ : ∃ k, b - a = k + 1 := ⟨b - a - 1, by omega⟩
      have h4 : b - (a + 1) = k := by omega
      simp [h1, h2, h3, hk, h4]
    · by_cases h2 : b = a
      · subst h2; simp
      · have h3 : ¬ a ≤ b := by omega
        simp [h1, h2, h3]

theorem read_writeBytes_outside (m : Memory) (a b : Nat) (bs : List Byte)
    (h : b < a ∨ a + bs.length ≤ b) :
    Memory.read (Memory.writeBytes m a bs) b = Memory.read m b := by
  rw [read_writeBytes]
  split
  · rw [List.getD_eq_default]; omega
  · rfl

theorem read_writeBytes_inside (m : Memory) (a k : Nat) (bs : List Byte) (h : k < bs.length) :
    Memory.read (Memory.writeBytes m a bs) (a + k) = bs[k] := by
  rw [read_writeBytes]
  simp [h]

/-! ### The canonical form -/

theorem wfAbove_erase (m : Memory) (a : Nat) (lo : Option Nat) (h : Memory.wfAbove lo m = true) :
    Memory.wfAbove lo (Memory.erase m a) = true := by
  induction m generalizing lo with
  | nil => rfl
  | cons c m ih =>
    simp only [Memory.wfAbove, Bool.and_eq_true] at h
    obtain ⟨⟨⟨h1, h2⟩, h3⟩, h4⟩ := h
    unfold Memory.erase
    split
    · refine ih lo ?_
      cases m with
      | nil => rfl
      | cons d m =>
        simp only [Memory.wfAbove, Bool.and_eq_true, Option.all_some, decide_eq_true_eq] at h4 ⊢
        refine ⟨⟨⟨?_, h4.1.1.2⟩, h4.1.2⟩, h4.2⟩
        cases lo with
        | none => rfl
        | some l => simp only [Option.all_some, decide_eq_true_eq] at h1 ⊢; omega
    · simp only [Memory.wfAbove, Bool.and_eq_true]
      exact ⟨⟨⟨h1, h2⟩, h3⟩, ih _ h4⟩

theorem wfAbove_insert (m : Memory) (a : Nat) (v : Byte) (lo : Option Nat)
    (hlo : lo.all (· < a) = true) (ha : a < Config.memSize) (hv : v ≠ Memory.unlisted)
    (hn : ∀ c ∈ m, c.1 ≠ a) (h : Memory.wfAbove lo m = true) :
    Memory.wfAbove lo (Memory.insert m a v) = true := by
  induction m generalizing lo with
  | nil => simp [Memory.insert, Memory.wfAbove, hlo, ha, hv]
  | cons c m ih =>
    have hca := hn c (by simp)
    simp only [Memory.wfAbove, Bool.and_eq_true] at h
    obtain ⟨⟨⟨h1, h2⟩, h3⟩, h4⟩ := h
    unfold Memory.insert
    split
    · rename_i hlt
      simp only [Memory.wfAbove, Bool.and_eq_true, Option.all_some, decide_eq_true_eq]
      exact ⟨⟨⟨hlo, ha⟩, by simpa using hv⟩, ⟨⟨hlt, by simpa using h2⟩, h3⟩, h4⟩
    · rename_i hlt
      simp only [Memory.wfAbove, Bool.and_eq_true]
      exact ⟨⟨⟨h1, h2⟩, h3⟩,
        ih _ (by simp only [Option.all_some, decide_eq_true_eq]; omega)
          (fun d hd => hn d (by simp [hd])) h4⟩

/-- A byte write at an address that exists keeps the canonical form. -/
theorem wf_write (m : Memory) (a : Nat) (v : Byte) (ha : a < Config.memSize)
    (h : Memory.wf m = true) : Memory.wf (Memory.write m a v) = true := by
  unfold Memory.write Memory.wf
  split
  · exact wfAbove_erase _ _ _ h
  · exact wfAbove_insert _ _ _ _ rfl ha (by assumption) (erase_not_mem m a) (wfAbove_erase _ _ _ h)

/-- A run of byte writes at addresses that exist keeps the canonical form. -/
theorem wf_writeBytes (m : Memory) (a : Nat) (bs : List Byte) (hr : a + bs.length ≤ Config.memSize)
    (h : Memory.wf m = true) : Memory.wf (Memory.writeBytes m a bs) = true := by
  induction bs generalizing m a with
  | nil => exact h
  | cons b bs ih =>
    simp only [List.length_cons] at hr
    exact ih _ _ (by omega) (wf_write m a b (by omega) h)

@[simp] theorem wf_nil : Memory.wf [] = true := rfl

/-! ### The checked blocks -/

theorem inRange_iff (a n : Nat) : inRange a n = true ↔ n = 0 ∨ a + n ≤ 4096 := by
  unfold inRange
  rw [Bool.or_eq_true, beq_iff_eq, decide_eq_true_eq]
  exact Iff.rfl

/-- A checked read either answers the bytes or the bounds fault (20_memory R62). -/
theorem readBlock_ok (s : State) (a n : Nat) (h : inRange a n = true) :
    s.readBlock a n = .ok (Memory.readBytes s.mem a n) := by simp [State.readBlock, h]

theorem readBlock_error (s : State) (a n : Nat) (h : inRange a n = false) :
    s.readBlock a n = .error .memoryBounds := by simp [State.readBlock, h]

/-- A checked write either changes memory alone or answers the bounds fault (20_memory R63). -/
theorem writeBlock_ok (s : State) (a : Nat) (bs : List Byte) (h : inRange a bs.length = true) :
    s.writeBlock a bs = .ok (s.setMem (Memory.writeBytes s.mem a bs)) := by
  simp [State.writeBlock, h]

theorem writeBlock_error (s : State) (a : Nat) (bs : List Byte) (h : inRange a bs.length = false) :
    s.writeBlock a bs = .error .memoryBounds := by simp [State.writeBlock, h]

/-- All that a checked write can answer. -/
theorem writeBlock_cases (s : State) (a : Nat) (bs : List Byte) :
    (s.writeBlock a bs = .ok (s.setMem (Memory.writeBytes s.mem a bs)) ∧ inRange a bs.length = true) ∨
      (s.writeBlock a bs = .error .memoryBounds ∧ inRange a bs.length = false) := by
  cases h : inRange a bs.length
  · exact .inr ⟨writeBlock_error s a bs h, rfl⟩
  · exact .inl ⟨writeBlock_ok s a bs h, rfl⟩

/-- All that a checked read can answer. -/
theorem readBlock_cases (s : State) (a n : Nat) :
    (s.readBlock a n = .ok (Memory.readBytes s.mem a n) ∧ inRange a n = true) ∨
      (s.readBlock a n = .error .memoryBounds ∧ inRange a n = false) := by
  cases h : inRange a n
  · exact .inr ⟨readBlock_error s a n h, rfl⟩
  · exact .inl ⟨readBlock_ok s a n h, rfl⟩

/-! ### Register blocks -/

@[simp] theorem length_decimalDigits (v : Byte) : (decimalDigits v).length = 3 := rfl

@[simp] theorem length_regBlock (s : State) (x : Nibble) : (s.regBlock x).length = x.toNat + 1 := by
  have := x.isLt
  simp [State.regBlock]; omega

theorem getElem_regBlock (s : State) (x k : Nibble) (h : k.toNat < (s.regBlock x).length) :
    (s.regBlock x)[k.toNat] = s.reg k := by
  simp [State.regBlock, State.reg]

/-- Loading a run of bytes from register `k` up. -/
theorem getElem_loadRegs (r : Regs) (k j : Nat) (bs : List Byte) (hj : j < 16) :
    (loadRegs r k bs)[j] = if k ≤ j then bs.getD (j - k) r[j] else r[j] := by
  induction bs generalizing r k with
  | nil => simp [loadRegs]
  | cons b bs ih =>
    simp only [loadRegs, ih, Vector.getElem_setIfInBounds]
    by_cases h1 : k + 1 ≤ j
    · have h2 : k ≤ j := by omega
      have h3 : k ≠ j := by omega
      obtain ⟨i, hi⟩ : ∃ i, j - k = i + 1 := ⟨j - k - 1, by omega⟩
      have h4 : j - (k + 1) = i := by omega
      simp [h1, h2, h3, hi, h4]
    · by_cases h2 : k = j
      · subst h2; simp
      · have h3 : ¬ k ≤ j := by omega
        simp [h1, h2, h3]

end Sys2Proof.Machine
end

