-- ==== Sys2Proof/Laws/State.lean ====
section
/-! SUPPORT. One lemma per field per update of the state, so that no proof unfolds a record update. -/

namespace Sys2Proof.Machine

/-! ### setPc -/

@[simp] theorem setPc_regs (s : State) (w : Word) :
    (s.setPc w).regs = s.regs := rfl

@[simp] theorem setPc_i (s : State) (w : Word) :
    (s.setPc w).i = s.i := rfl

@[simp] theorem setPc_pc (s : State) (w : Word) :
    (s.setPc w).pc = w := rfl

@[simp] theorem setPc_sp (s : State) (w : Word) :
    (s.setPc w).sp = s.sp := rfl

@[simp] theorem setPc_stack (s : State) (w : Word) :
    (s.setPc w).stack = s.stack := rfl

@[simp] theorem setPc_dt (s : State) (w : Word) :
    (s.setPc w).dt = s.dt := rfl

@[simp] theorem setPc_st (s : State) (w : Word) :
    (s.setPc w).st = s.st := rfl

@[simp] theorem setPc_mem (s : State) (w : Word) :
    (s.setPc w).mem = s.mem := rfl

@[simp] theorem setPc_fb (s : State) (w : Word) :
    (s.setPc w).fb = s.fb := rfl

@[simp] theorem setPc_mode (s : State) (w : Word) :
    (s.setPc w).mode = s.mode := rfl

@[simp] theorem setPc_turns (s : State) (w : Word) :
    (s.setPc w).turns = s.turns := rfl

@[simp] theorem setPc_turnNo (s : State) (w : Word) :
    (s.setPc w).turnNo = s.turnNo := rfl

/-! ### setI -/

@[simp] theorem setI_regs (s : State) (w : Word) :
    (s.setI w).regs = s.regs := rfl

@[simp] theorem setI_i (s : State) (w : Word) :
    (s.setI w).i = w := rfl

@[simp] theorem setI_pc (s : State) (w : Word) :
    (s.setI w).pc = s.pc := rfl

@[simp] theorem setI_sp (s : State) (w : Word) :
    (s.setI w).sp = s.sp := rfl

@[simp] theorem setI_stack (s : State) (w : Word) :
    (s.setI w).stack = s.stack := rfl

@[simp] theorem setI_dt (s : State) (w : Word) :
    (s.setI w).dt = s.dt := rfl

@[simp] theorem setI_st (s : State) (w : Word) :
    (s.setI w).st = s.st := rfl

@[simp] theorem setI_mem (s : State) (w : Word) :
    (s.setI w).mem = s.mem := rfl

@[simp] theorem setI_fb (s : State) (w : Word) :
    (s.setI w).fb = s.fb := rfl

@[simp] theorem setI_mode (s : State) (w : Word) :
    (s.setI w).mode = s.mode := rfl

@[simp] theorem setI_turns (s : State) (w : Word) :
    (s.setI w).turns = s.turns := rfl

@[simp] theorem setI_turnNo (s : State) (w : Word) :
    (s.setI w).turnNo = s.turnNo := rfl

/-! ### setDt -/

@[simp] theorem setDt_regs (s : State) (v : Byte) :
    (s.setDt v).regs = s.regs := rfl

@[simp] theorem setDt_i (s : State) (v : Byte) :
    (s.setDt v).i = s.i := rfl

@[simp] theorem setDt_pc (s : State) (v : Byte) :
    (s.setDt v).pc = s.pc := rfl

@[simp] theorem setDt_sp (s : State) (v : Byte) :
    (s.setDt v).sp = s.sp := rfl

@[simp] theorem setDt_stack (s : State) (v : Byte) :
    (s.setDt v).stack = s.stack := rfl

@[simp] theorem setDt_dt (s : State) (v : Byte) :
    (s.setDt v).dt = v := rfl

@[simp] theorem setDt_st (s : State) (v : Byte) :
    (s.setDt v).st = s.st := rfl

@[simp] theorem setDt_mem (s : State) (v : Byte) :
    (s.setDt v).mem = s.mem := rfl

@[simp] theorem setDt_fb (s : State) (v : Byte) :
    (s.setDt v).fb = s.fb := rfl

@[simp] theorem setDt_mode (s : State) (v : Byte) :
    (s.setDt v).mode = s.mode := rfl

@[simp] theorem setDt_turns (s : State) (v : Byte) :
    (s.setDt v).turns = s.turns := rfl

@[simp] theorem setDt_turnNo (s : State) (v : Byte) :
    (s.setDt v).turnNo = s.turnNo := rfl

/-! ### setSt -/

@[simp] theorem setSt_regs (s : State) (v : Byte) :
    (s.setSt v).regs = s.regs := rfl

@[simp] theorem setSt_i (s : State) (v : Byte) :
    (s.setSt v).i = s.i := rfl

@[simp] theorem setSt_pc (s : State) (v : Byte) :
    (s.setSt v).pc = s.pc := rfl

@[simp] theorem setSt_sp (s : State) (v : Byte) :
    (s.setSt v).sp = s.sp := rfl

@[simp] theorem setSt_stack (s : State) (v : Byte) :
    (s.setSt v).stack = s.stack := rfl

@[simp] theorem setSt_dt (s : State) (v : Byte) :
    (s.setSt v).dt = s.dt := rfl

@[simp] theorem setSt_st (s : State) (v : Byte) :
    (s.setSt v).st = v := rfl

@[simp] theorem setSt_mem (s : State) (v : Byte) :
    (s.setSt v).mem = s.mem := rfl

@[simp] theorem setSt_fb (s : State) (v : Byte) :
    (s.setSt v).fb = s.fb := rfl

@[simp] theorem setSt_mode (s : State) (v : Byte) :
    (s.setSt v).mode = s.mode := rfl

@[simp] theorem setSt_turns (s : State) (v : Byte) :
    (s.setSt v).turns = s.turns := rfl

@[simp] theorem setSt_turnNo (s : State) (v : Byte) :
    (s.setSt v).turnNo = s.turnNo := rfl

/-! ### setMode -/

@[simp] theorem setMode_regs (s : State) (m : Mode) :
    (s.setMode m).regs = s.regs := rfl

@[simp] theorem setMode_i (s : State) (m : Mode) :
    (s.setMode m).i = s.i := rfl

@[simp] theorem setMode_pc (s : State) (m : Mode) :
    (s.setMode m).pc = s.pc := rfl

@[simp] theorem setMode_sp (s : State) (m : Mode) :
    (s.setMode m).sp = s.sp := rfl

@[simp] theorem setMode_stack (s : State) (m : Mode) :
    (s.setMode m).stack = s.stack := rfl

@[simp] theorem setMode_dt (s : State) (m : Mode) :
    (s.setMode m).dt = s.dt := rfl

@[simp] theorem setMode_st (s : State) (m : Mode) :
    (s.setMode m).st = s.st := rfl

@[simp] theorem setMode_mem (s : State) (m : Mode) :
    (s.setMode m).mem = s.mem := rfl

@[simp] theorem setMode_fb (s : State) (m : Mode) :
    (s.setMode m).fb = s.fb := rfl

@[simp] theorem setMode_mode (s : State) (m : Mode) :
    (s.setMode m).mode = m := rfl

@[simp] theorem setMode_turns (s : State) (m : Mode) :
    (s.setMode m).turns = s.turns := rfl

@[simp] theorem setMode_turnNo (s : State) (m : Mode) :
    (s.setMode m).turnNo = s.turnNo := rfl

/-! ### setSp -/

@[simp] theorem setSp_regs (s : State) (n : Fin 17) :
    (s.setSp n).regs = s.regs := rfl

@[simp] theorem setSp_i (s : State) (n : Fin 17) :
    (s.setSp n).i = s.i := rfl

@[simp] theorem setSp_pc (s : State) (n : Fin 17) :
    (s.setSp n).pc = s.pc := rfl

@[simp] theorem setSp_sp (s : State) (n : Fin 17) :
    (s.setSp n).sp = n := rfl

@[simp] theorem setSp_stack (s : State) (n : Fin 17) :
    (s.setSp n).stack = s.stack := rfl

@[simp] theorem setSp_dt (s : State) (n : Fin 17) :
    (s.setSp n).dt = s.dt := rfl

@[simp] theorem setSp_st (s : State) (n : Fin 17) :
    (s.setSp n).st = s.st := rfl

@[simp] theorem setSp_mem (s : State) (n : Fin 17) :
    (s.setSp n).mem = s.mem := rfl

@[simp] theorem setSp_fb (s : State) (n : Fin 17) :
    (s.setSp n).fb = s.fb := rfl

@[simp] theorem setSp_mode (s : State) (n : Fin 17) :
    (s.setSp n).mode = s.mode := rfl

@[simp] theorem setSp_turns (s : State) (n : Fin 17) :
    (s.setSp n).turns = s.turns := rfl

@[simp] theorem setSp_turnNo (s : State) (n : Fin 17) :
    (s.setSp n).turnNo = s.turnNo := rfl

/-! ### setStack -/

@[simp] theorem setStack_regs (s : State) (k : Vector Word 16) :
    (s.setStack k).regs = s.regs := rfl

@[simp] theorem setStack_i (s : State) (k : Vector Word 16) :
    (s.setStack k).i = s.i := rfl

@[simp] theorem setStack_pc (s : State) (k : Vector Word 16) :
    (s.setStack k).pc = s.pc := rfl

@[simp] theorem setStack_sp (s : State) (k : Vector Word 16) :
    (s.setStack k).sp = s.sp := rfl

@[simp] theorem setStack_stack (s : State) (k : Vector Word 16) :
    (s.setStack k).stack = k := rfl

@[simp] theorem setStack_dt (s : State) (k : Vector Word 16) :
    (s.setStack k).dt = s.dt := rfl

@[simp] theorem setStack_st (s : State) (k : Vector Word 16) :
    (s.setStack k).st = s.st := rfl

@[simp] theorem setStack_mem (s : State) (k : Vector Word 16) :
    (s.setStack k).mem = s.mem := rfl

@[simp] theorem setStack_fb (s : State) (k : Vector Word 16) :
    (s.setStack k).fb = s.fb := rfl

@[simp] theorem setStack_mode (s : State) (k : Vector Word 16) :
    (s.setStack k).mode = s.mode := rfl

@[simp] theorem setStack_turns (s : State) (k : Vector Word 16) :
    (s.setStack k).turns = s.turns := rfl

@[simp] theorem setStack_turnNo (s : State) (k : Vector Word 16) :
    (s.setStack k).turnNo = s.turnNo := rfl

/-! ### setMem -/

@[simp] theorem setMem_regs (s : State) (m : Memory) :
    (s.setMem m).regs = s.regs := rfl

@[simp] theorem setMem_i (s : State) (m : Memory) :
    (s.setMem m).i = s.i := rfl

@[simp] theorem setMem_pc (s : State) (m : Memory) :
    (s.setMem m).pc = s.pc := rfl

@[simp] theorem setMem_sp (s : State) (m : Memory) :
    (s.setMem m).sp = s.sp := rfl

@[simp] theorem setMem_stack (s : State) (m : Memory) :
    (s.setMem m).stack = s.stack := rfl

@[simp] theorem setMem_dt (s : State) (m : Memory) :
    (s.setMem m).dt = s.dt := rfl

@[simp] theorem setMem_st (s : State) (m : Memory) :
    (s.setMem m).st = s.st := rfl

@[simp] theorem setMem_mem (s : State) (m : Memory) :
    (s.setMem m).mem = m := rfl

@[simp] theorem setMem_fb (s : State) (m : Memory) :
    (s.setMem m).fb = s.fb := rfl

@[simp] theorem setMem_mode (s : State) (m : Memory) :
    (s.setMem m).mode = s.mode := rfl

@[simp] theorem setMem_turns (s : State) (m : Memory) :
    (s.setMem m).turns = s.turns := rfl

@[simp] theorem setMem_turnNo (s : State) (m : Memory) :
    (s.setMem m).turnNo = s.turnNo := rfl

/-! ### setFb -/

@[simp] theorem setFb_regs (s : State) (f : Framebuffer) :
    (s.setFb f).regs = s.regs := rfl

@[simp] theorem setFb_i (s : State) (f : Framebuffer) :
    (s.setFb f).i = s.i := rfl

@[simp] theorem setFb_pc (s : State) (f : Framebuffer) :
    (s.setFb f).pc = s.pc := rfl

@[simp] theorem setFb_sp (s : State) (f : Framebuffer) :
    (s.setFb f).sp = s.sp := rfl

@[simp] theorem setFb_stack (s : State) (f : Framebuffer) :
    (s.setFb f).stack = s.stack := rfl

@[simp] theorem setFb_dt (s : State) (f : Framebuffer) :
    (s.setFb f).dt = s.dt := rfl

@[simp] theorem setFb_st (s : State) (f : Framebuffer) :
    (s.setFb f).st = s.st := rfl

@[simp] theorem setFb_mem (s : State) (f : Framebuffer) :
    (s.setFb f).mem = s.mem := rfl

@[simp] theorem setFb_fb (s : State) (f : Framebuffer) :
    (s.setFb f).fb = f := rfl

@[simp] theorem setFb_mode (s : State) (f : Framebuffer) :
    (s.setFb f).mode = s.mode := rfl

@[simp] theorem setFb_turns (s : State) (f : Framebuffer) :
    (s.setFb f).turns = s.turns := rfl

@[simp] theorem setFb_turnNo (s : State) (f : Framebuffer) :
    (s.setFb f).turnNo = s.turnNo := rfl

/-! ### setRegs -/

@[simp] theorem setRegs_regs (s : State) (r : Regs) :
    (s.setRegs r).regs = r := rfl

@[simp] theorem setRegs_i (s : State) (r : Regs) :
    (s.setRegs r).i = s.i := rfl

@[simp] theorem setRegs_pc (s : State) (r : Regs) :
    (s.setRegs r).pc = s.pc := rfl

@[simp] theorem setRegs_sp (s : State) (r : Regs) :
    (s.setRegs r).sp = s.sp := rfl

@[simp] theorem setRegs_stack (s : State) (r : Regs) :
    (s.setRegs r).stack = s.stack := rfl

@[simp] theorem setRegs_dt (s : State) (r : Regs) :
    (s.setRegs r).dt = s.dt := rfl

@[simp] theorem setRegs_st (s : State) (r : Regs) :
    (s.setRegs r).st = s.st := rfl

@[simp] theorem setRegs_mem (s : State) (r : Regs) :
    (s.setRegs r).mem = s.mem := rfl

@[simp] theorem setRegs_fb (s : State) (r : Regs) :
    (s.setRegs r).fb = s.fb := rfl

@[simp] theorem setRegs_mode (s : State) (r : Regs) :
    (s.setRegs r).mode = s.mode := rfl

@[simp] theorem setRegs_turns (s : State) (r : Regs) :
    (s.setRegs r).turns = s.turns := rfl

@[simp] theorem setRegs_turnNo (s : State) (r : Regs) :
    (s.setRegs r).turnNo = s.turnNo := rfl

/-! ### setReg -/

@[simp] theorem setReg_regs (s : State) (x : Nibble) (v : Byte) :
    (s.setReg x v).regs = s.regs.set x.toNat v x.isLt := rfl

@[simp] theorem setReg_i (s : State) (x : Nibble) (v : Byte) :
    (s.setReg x v).i = s.i := rfl

@[simp] theorem setReg_pc (s : State) (x : Nibble) (v : Byte) :
    (s.setReg x v).pc = s.pc := rfl

@[simp] theorem setReg_sp (s : State) (x : Nibble) (v : Byte) :
    (s.setReg x v).sp = s.sp := rfl

@[simp] theorem setReg_stack (s : State) (x : Nibble) (v : Byte) :
    (s.setReg x v).stack = s.stack := rfl

@[simp] theorem setReg_dt (s : State) (x : Nibble) (v : Byte) :
    (s.setReg x v).dt = s.dt := rfl

@[simp] theorem setReg_st (s : State) (x : Nibble) (v : Byte) :
    (s.setReg x v).st = s.st := rfl

@[simp] theorem setReg_mem (s : State) (x : Nibble) (v : Byte) :
    (s.setReg x v).mem = s.mem := rfl

@[simp] theorem setReg_fb (s : State) (x : Nibble) (v : Byte) :
    (s.setReg x v).fb = s.fb := rfl

@[simp] theorem setReg_mode (s : State) (x : Nibble) (v : Byte) :
    (s.setReg x v).mode = s.mode := rfl

@[simp] theorem setReg_turns (s : State) (x : Nibble) (v : Byte) :
    (s.setReg x v).turns = s.turns := rfl

@[simp] theorem setReg_turnNo (s : State) (x : Nibble) (v : Byte) :
    (s.setReg x v).turnNo = s.turnNo := rfl

/-! ### advance -/

@[simp] theorem advance_regs (s : State) :
    (s.advance).regs = s.regs := rfl

@[simp] theorem advance_i (s : State) :
    (s.advance).i = s.i := rfl

@[simp] theorem advance_pc (s : State) :
    (s.advance).pc = s.pc + 2#16 := rfl

@[simp] theorem advance_sp (s : State) :
    (s.advance).sp = s.sp := rfl

@[simp] theorem advance_stack (s : State) :
    (s.advance).stack = s.stack := rfl

@[simp] theorem advance_dt (s : State) :
    (s.advance).dt = s.dt := rfl

@[simp] theorem advance_st (s : State) :
    (s.advance).st = s.st := rfl

@[simp] theorem advance_mem (s : State) :
    (s.advance).mem = s.mem := rfl

@[simp] theorem advance_fb (s : State) :
    (s.advance).fb = s.fb := rfl

@[simp] theorem advance_mode (s : State) :
    (s.advance).mode = s.mode := rfl

@[simp] theorem advance_turns (s : State) :
    (s.advance).turns = s.turns := rfl

@[simp] theorem advance_turnNo (s : State) :
    (s.advance).turnNo = s.turnNo := rfl

/-! ### skipIf -/

@[simp] theorem skipIf_regs (s : State) (c : Bool) :
    (s.skipIf c).regs = s.regs := rfl

@[simp] theorem skipIf_i (s : State) (c : Bool) :
    (s.skipIf c).i = s.i := rfl

@[simp] theorem skipIf_pc (s : State) (c : Bool) :
    (s.skipIf c).pc = s.pc + if c then 4#16 else 2#16 := rfl

@[simp] theorem skipIf_sp (s : State) (c : Bool) :
    (s.skipIf c).sp = s.sp := rfl

@[simp] theorem skipIf_stack (s : State) (c : Bool) :
    (s.skipIf c).stack = s.stack := rfl

@[simp] theorem skipIf_dt (s : State) (c : Bool) :
    (s.skipIf c).dt = s.dt := rfl

@[simp] theorem skipIf_st (s : State) (c : Bool) :
    (s.skipIf c).st = s.st := rfl

@[simp] theorem skipIf_mem (s : State) (c : Bool) :
    (s.skipIf c).mem = s.mem := rfl

@[simp] theorem skipIf_fb (s : State) (c : Bool) :
    (s.skipIf c).fb = s.fb := rfl

@[simp] theorem skipIf_mode (s : State) (c : Bool) :
    (s.skipIf c).mode = s.mode := rfl

@[simp] theorem skipIf_turns (s : State) (c : Bool) :
    (s.skipIf c).turns = s.turns := rfl

@[simp] theorem skipIf_turnNo (s : State) (c : Bool) :
    (s.skipIf c).turnNo = s.turnNo := rfl

/-! ### tick -/

@[simp] theorem tick_regs (s : State) :
    (s.tick).regs = s.regs := rfl

@[simp] theorem tick_i (s : State) :
    (s.tick).i = s.i := rfl

@[simp] theorem tick_pc (s : State) :
    (s.tick).pc = s.pc := rfl

@[simp] theorem tick_sp (s : State) :
    (s.tick).sp = s.sp := rfl

@[simp] theorem tick_stack (s : State) :
    (s.tick).stack = s.stack := rfl

@[simp] theorem tick_dt (s : State) :
    (s.tick).dt = tickTimer s.dt := rfl

@[simp] theorem tick_st (s : State) :
    (s.tick).st = tickTimer s.st := rfl

@[simp] theorem tick_mem (s : State) :
    (s.tick).mem = s.mem := rfl

@[simp] theorem tick_fb (s : State) :
    (s.tick).fb = s.fb := rfl

@[simp] theorem tick_mode (s : State) :
    (s.tick).mode = s.mode := rfl

@[simp] theorem tick_turns (s : State) :
    (s.tick).turns = s.turns := rfl

@[simp] theorem tick_turnNo (s : State) :
    (s.tick).turnNo = s.turnNo := rfl

/-! ### endTurn -/

@[simp] theorem endTurn_regs (s : State) :
    (s.endTurn).regs = s.regs := rfl

@[simp] theorem endTurn_i (s : State) :
    (s.endTurn).i = s.i := rfl

@[simp] theorem endTurn_pc (s : State) :
    (s.endTurn).pc = s.pc := rfl

@[simp] theorem endTurn_sp (s : State) :
    (s.endTurn).sp = s.sp := rfl

@[simp] theorem endTurn_stack (s : State) :
    (s.endTurn).stack = s.stack := rfl

@[simp] theorem endTurn_dt (s : State) :
    (s.endTurn).dt = tickTimes s.turn.ticks s.dt := rfl

@[simp] theorem endTurn_st (s : State) :
    (s.endTurn).st = tickTimes s.turn.ticks s.st := rfl

@[simp] theorem endTurn_mem (s : State) :
    (s.endTurn).mem = s.mem := rfl

@[simp] theorem endTurn_fb (s : State) :
    (s.endTurn).fb = s.fb := rfl

@[simp] theorem endTurn_mode (s : State) :
    (s.endTurn).mode = s.mode := rfl

@[simp] theorem endTurn_turns (s : State) :
    (s.endTurn).turns = s.turns.tail := rfl

@[simp] theorem endTurn_turnNo (s : State) :
    (s.endTurn).turnNo = s.turnNo + 1 := rfl

/-! ### Register reads -/

@[simp] theorem reg_setPc (s : State) (w : Word) (y : Nibble) :
    (s.setPc w).reg y = s.reg y := rfl

@[simp] theorem reg_setI (s : State) (w : Word) (y : Nibble) :
    (s.setI w).reg y = s.reg y := rfl

@[simp] theorem reg_setDt (s : State) (v : Byte) (y : Nibble) :
    (s.setDt v).reg y = s.reg y := rfl

@[simp] theorem reg_setSt (s : State) (v : Byte) (y : Nibble) :
    (s.setSt v).reg y = s.reg y := rfl

@[simp] theorem reg_setMode (s : State) (m : Mode) (y : Nibble) :
    (s.setMode m).reg y = s.reg y := rfl

@[simp] theorem reg_setSp (s : State) (n : Fin 17) (y : Nibble) :
    (s.setSp n).reg y = s.reg y := rfl

@[simp] theorem reg_setStack (s : State) (k : Vector Word 16) (y : Nibble) :
    (s.setStack k).reg y = s.reg y := rfl

@[simp] theorem reg_setMem (s : State) (m : Memory) (y : Nibble) :
    (s.setMem m).reg y = s.reg y := rfl

@[simp] theorem reg_setFb (s : State) (f : Framebuffer) (y : Nibble) :
    (s.setFb f).reg y = s.reg y := rfl

@[simp] theorem reg_advance (s : State) (y : Nibble) :
    (s.advance).reg y = s.reg y := rfl

@[simp] theorem reg_skipIf (s : State) (c : Bool) (y : Nibble) :
    (s.skipIf c).reg y = s.reg y := rfl

@[simp] theorem reg_tick (s : State) (y : Nibble) :
    (s.tick).reg y = s.reg y := rfl

@[simp] theorem reg_endTurn (s : State) (y : Nibble) :
    (s.endTurn).reg y = s.reg y := rfl

/-- Reading a register after a write: the value written, or the old one (10_state R21). -/
theorem reg_setReg (s : State) (x y : Nibble) (v : Byte) :
    (s.setReg x v).reg y = if y = x then v else s.reg y := by
  unfold State.reg State.setReg State.setRegs
  by_cases h : y = x
  · subst h; simp
  · have hn : x.toNat ≠ y.toNat := fun e => h (BitVec.eq_of_toNat_eq e).symm
    simp [h, hn]

@[simp] theorem reg_setReg_self (s : State) (x : Nibble) (v : Byte) :
    (s.setReg x v).reg x = v := by simp [reg_setReg]

theorem reg_setReg_ne (s : State) {x y : Nibble} (v : Byte) (h : y ≠ x) :
    (s.setReg x v).reg y = s.reg y := by simp [reg_setReg, h]

/-! ### The two writes of a flag-writing instruction -/

/-- The result is written first and the flag last (42_alu R161). -/
theorem writeResultFlag_eq (s : State) (x : Nibble) (r : Byte) (f : Bool) :
    s.writeResultFlag x r f = (s.setReg x r).setReg vf (flagByte f) := rfl

@[simp] theorem writeResultFlag_i (s : State) (x : Nibble) (r : Byte) (f : Bool) :
    (s.writeResultFlag x r f).i = s.i := rfl

@[simp] theorem writeResultFlag_pc (s : State) (x : Nibble) (r : Byte) (f : Bool) :
    (s.writeResultFlag x r f).pc = s.pc := rfl

@[simp] theorem writeResultFlag_sp (s : State) (x : Nibble) (r : Byte) (f : Bool) :
    (s.writeResultFlag x r f).sp = s.sp := rfl

@[simp] theorem writeResultFlag_stack (s : State) (x : Nibble) (r : Byte) (f : Bool) :
    (s.writeResultFlag x r f).stack = s.stack := rfl

@[simp] theorem writeResultFlag_dt (s : State) (x : Nibble) (r : Byte) (f : Bool) :
    (s.writeResultFlag x r f).dt = s.dt := rfl

@[simp] theorem writeResultFlag_st (s : State) (x : Nibble) (r : Byte) (f : Bool) :
    (s.writeResultFlag x r f).st = s.st := rfl

@[simp] theorem writeResultFlag_mem (s : State) (x : Nibble) (r : Byte) (f : Bool) :
    (s.writeResultFlag x r f).mem = s.mem := rfl

@[simp] theorem writeResultFlag_fb (s : State) (x : Nibble) (r : Byte) (f : Bool) :
    (s.writeResultFlag x r f).fb = s.fb := rfl

@[simp] theorem writeResultFlag_mode (s : State) (x : Nibble) (r : Byte) (f : Bool) :
    (s.writeResultFlag x r f).mode = s.mode := rfl

@[simp] theorem writeResultFlag_turns (s : State) (x : Nibble) (r : Byte) (f : Bool) :
    (s.writeResultFlag x r f).turns = s.turns := rfl

@[simp] theorem writeResultFlag_turnNo (s : State) (x : Nibble) (r : Byte) (f : Bool) :
    (s.writeResultFlag x r f).turnNo = s.turnNo := rfl

/-- VF holds the flag, the destination the result, every other register its old value (R161). -/
theorem reg_writeResultFlag (s : State) (x y : Nibble) (r : Byte) (f : Bool) :
    (s.writeResultFlag x r f).reg y =
      if y = vf then flagByte f else if y = x then r else s.reg y := by
  rw [writeResultFlag_eq, reg_setReg, reg_setReg]

/-! ### The caller's inputs -/

@[simp] theorem turn_setPc (s : State) (w : Word) :
    (s.setPc w).turn = s.turn := rfl

@[simp] theorem turn_setI (s : State) (w : Word) :
    (s.setI w).turn = s.turn := rfl

@[simp] theorem turn_setDt (s : State) (v : Byte) :
    (s.setDt v).turn = s.turn := rfl

@[simp] theorem turn_setSt (s : State) (v : Byte) :
    (s.setSt v).turn = s.turn := rfl

@[simp] theorem turn_setMode (s : State) (m : Mode) :
    (s.setMode m).turn = s.turn := rfl

@[simp] theorem turn_setSp (s : State) (n : Fin 17) :
    (s.setSp n).turn = s.turn := rfl

@[simp] theorem turn_setStack (s : State) (k : Vector Word 16) :
    (s.setStack k).turn = s.turn := rfl

@[simp] theorem turn_setMem (s : State) (m : Memory) :
    (s.setMem m).turn = s.turn := rfl

@[simp] theorem turn_setFb (s : State) (f : Framebuffer) :
    (s.setFb f).turn = s.turn := rfl

@[simp] theorem turn_setRegs (s : State) (r : Regs) :
    (s.setRegs r).turn = s.turn := rfl

@[simp] theorem turn_setReg (s : State) (x : Nibble) (v : Byte) :
    (s.setReg x v).turn = s.turn := rfl

@[simp] theorem turn_advance (s : State) :
    (s.advance).turn = s.turn := rfl

@[simp] theorem turn_skipIf (s : State) (c : Bool) :
    (s.skipIf c).turn = s.turn := rfl

@[simp] theorem turn_tick (s : State) :
    (s.tick).turn = s.turn := rfl

@[simp] theorem keys_setMode (s : State) (m : Mode) : (s.setMode m).keys = s.keys := rfl

end Sys2Proof.Machine
end

