-- ==== Sys2Proof/Laws/Ops.lean ====
section
/-! SUPPORT. For each shared operation, once, everything it can do. -/

namespace Sys2Proof.Machine

/-! ### Outcomes -/

@[simp] theorem mapNext_next (g : State → State) (s : State) :
    mapNext g (.next s) = .next (g s) := rfl

@[simp] theorem mapNext_fault (g : State → State) (f : Fault) :
    mapNext g (.fault f) = .fault f := rfl

/-- A mapped outcome is a next state exactly when the outcome was. -/
theorem mapNext_eq_next {g : State → State} {o : Result} {t : State} (h : mapNext g o = .next t) :
    ∃ u, o = .next u ∧ t = g u := by
  cases o with
  | next u => exact ⟨u, rfl, by simpa using h.symm⟩
  | fault f => cases h
  | refused r => cases h

/-! ### Stack -/

/-- A push below depth 16 stores the word in the next slot and counts it; at 16 it is refused. -/
theorem push_some {s t : State} {w : Word} (h : s.push w = some t) :
    s.sp.val < 16 ∧ t.sp.val = s.sp.val + 1 ∧
      (∀ (k : Nat) (hk : k < 16), t.stack[k] = if k = s.sp.val then w else s.stack[k]) ∧
      t = { s with stack := t.stack, sp := t.sp } := by
  unfold State.push at h
  split at h
  · cases h
    refine ⟨by assumption, rfl, fun k hk => ?_, rfl⟩
    simp only [Vector.getElem_set]
    by_cases hk' : s.sp.val = k
    · simp [hk']
    · simp [hk', Ne.symm hk']
  · cases h

theorem push_none_iff (s : State) (w : Word) : s.push w = none ↔ s.sp.val = 16 := by
  unfold State.push
  have := s.sp.isLt
  split
  · simp; omega
  · simp; omega

/-- A pop answers the top slot and counts down; the stack itself is untouched. -/
theorem pop_some {s t : State} {w : Word} (h : s.pop = some (w, t)) :
    t.sp.val + 1 = s.sp.val ∧ (∃ (k : Nat) (hk : k < 16), k = t.sp.val ∧ w = s.stack[k]) ∧
      t = { s with sp := t.sp } := by
  unfold State.pop at h
  split at h
  · cases h
  · rename_i hs
    cases h
    have := s.sp.isLt
    exact ⟨by simp only; omega, ⟨s.sp.val - 1, by omega, rfl, rfl⟩, rfl⟩

theorem pop_none_iff (s : State) : s.pop = none ↔ s.sp.val = 0 := by
  unfold State.pop
  split <;> simp_all

/-! ### The caller's turn -/

@[simp] theorem turn_cons (s : State) (t : Turn) (ts : List Turn) (h : s.turns = t :: ts) :
    s.turn = t := by simp [State.turn, h]

theorem turn_nil (s : State) (h : s.turns = []) : s.turn = Config.callerTurn s.turnNo := by
  simp [State.turn, h]

/-! ### The key wait -/

/-- Both ends of the check of a key wait (45_timers_keys R234). -/
theorem awaitCheck_none (t : Nibble) (s : State) (h : s.keys = 0#16) :
    s.awaitCheck t = s.setMode (.awaitingKey t) := by simp [State.awaitCheck, h]

theorem awaitCheck_some (t : Nibble) (s : State) (h : s.keys ≠ 0#16) :
    s.awaitCheck t =
      (s.setReg t (BitVec.ofNat 8 (leastKey s.keys))).advance.setMode .running := by
  simp [State.awaitCheck, h]

/-! ### Fetch -/

/-- All that a fetch can find (40_control_flow R120, 60_exceptions R257). -/
theorem fetch_eq (s : State) : s.fetch =
    if s.pc.toNat ≤ 4094 then
      match decodeWord (wordOfBytes (Memory.read s.mem s.pc.toNat)
          (Memory.read s.mem (s.pc.toNat + 1))) with
      | .instr i => .run i
      | .reject _ => .fail .decodeFailure
    else .fail .memoryBounds := by
  unfold State.fetch
  by_cases h : s.pc.toNat ≤ 4094
  · rw [readBlock_ok _ _ _ ((inRange_iff _ _).2 (.inr (by omega))), if_pos h]
    rfl
  · have : inRange s.pc.toNat 2 = false := by
      rw [Bool.eq_false_iff, Ne, inRange_iff]; omega
    rw [readBlock_error _ _ _ this]
    simp [h]

/-! ### Host writes -/

/-- All that a host write of a byte can do: write it alone, or fail above 4095 (R37, log 18). -/
theorem hostWrite_byte_ok (s : State) (a : Nat) (v : Byte) (h : a ≤ 4095) :
    s.hostWrite (.byte a v) = .next (s.setMem (Memory.write s.mem a v)) := by
  simp only [State.hostWrite]
  rw [writeBlock_ok _ _ _ ((inRange_iff _ _).2 (.inr (by simp only [List.length_singleton]; omega)))]
  rfl

theorem hostWrite_byte_fault (s : State) (a : Nat) (v : Byte) (h : 4095 < a) :
    s.hostWrite (.byte a v) = .fault .memoryBounds := by
  have hr : inRange a [v].length = false := by
    rw [Bool.eq_false_iff, Ne, inRange_iff, List.length_singleton]; omega
  simp only [State.hostWrite]
  rw [writeBlock_error _ _ _ hr]
  rfl

/-- A host write keeps the canonical form of memory. -/
theorem hostWrite_wf {s t : State} {w : HostWrite} (h : s.hostWrite w = .next t)
    (hm : Memory.wf s.mem = true) : Memory.wf t.mem = true := by
  cases w with
  | byte a v =>
    by_cases ha : a ≤ 4095
    · rw [hostWrite_byte_ok s a v ha] at h
      cases h
      exact wf_write _ _ _ (by simp only [Config.memSize]; omega) hm
    · rw [hostWrite_byte_fault s a v (by omega)] at h
      cases h
  | reg x v => cases h; exact hm
  | i w => cases h; exact hm
  | pc w => cases h; exact hm
  | sp n => cases h; exact hm
  | slot k w => cases h; exact hm
  | dt v => cases h; exact hm
  | st v => cases h; exact hm
  | mode m => cases h; exact hm

@[simp] theorem hostWrites_nil (s : State) : s.hostWrites [] = .next s := rfl

/-- One write and then the rest, when the write answers a state. -/
theorem hostWrites_cons {s t : State} {w : HostWrite} (ws : List HostWrite)
    (h : s.hostWrite w = .next t) : s.hostWrites (w :: ws) = t.hostWrites ws := by
  simp only [State.hostWrites, h]

/-- Writes in two batches. -/
theorem hostWrites_append {s t : State} {ws : List HostWrite} (vs : List HostWrite)
    (h : s.hostWrites ws = .next t) : s.hostWrites (ws ++ vs) = t.hostWrites vs := by
  induction ws generalizing s with
  | nil => cases h; rfl
  | cons w ws ih =>
    simp only [State.hostWrites, List.cons_append] at h ⊢
    split at h
    · exact ih h
    · cases h
    · cases h

end Sys2Proof.Machine
end

