-- ==== Sys2Proof/Laws/PerInstr.lean ====
section
/-! SUPPORT. Per instruction: its encoding matches its own row of the opcode map (spec 30_encoding R95). -/

namespace Sys2Proof

/-- The masked part of each format is its fixed bits. -/
theorem and_mask_NNN (t : Nibble) (nnn : Addr12) :
    wordNNN t nnn &&& 0xF000#16 = wordNNN t 0#12 := by
  apply BitVec.eq_of_getLsbD_eq
  intro i hi
  simp only [wordNNN, BitVec.getLsbD_and, BitVec.getLsbD_append]
  interval_cases i <;> simp

theorem and_mask_XKK (t x : Nibble) (kk : Byte) :
    wordXKK t x kk &&& 0xF000#16 = wordNNN t 0#12 := by
  apply BitVec.eq_of_getLsbD_eq
  intro i hi
  simp only [wordXKK, wordNNN, BitVec.getLsbD_and, BitVec.getLsbD_append]
  interval_cases i <;> simp

theorem and_mask_XYN (t x y n : Nibble) :
    wordXYN t x y n &&& 0xF000#16 = wordNNN t 0#12 := by
  apply BitVec.eq_of_getLsbD_eq
  intro i hi
  simp only [wordXYN, wordNNN, BitVec.getLsbD_and, BitVec.getLsbD_append]
  interval_cases i <;> simp

theorem and_mask_XY (t x y n : Nibble) :
    wordXYN t x y n &&& 0xF00F#16 = wordXYN t 0#4 0#4 n := by
  apply BitVec.eq_of_getLsbD_eq
  intro i hi
  simp only [wordXYN, BitVec.getLsbD_and, BitVec.getLsbD_append]
  interval_cases i <;> simp

theorem and_mask_X (t x : Nibble) (kk : Byte) :
    wordXKK t x kk &&& 0xF0FF#16 = wordXKK t 0#4 kk := by
  apply BitVec.eq_of_getLsbD_eq
  intro i hi
  simp only [wordXKK, BitVec.getLsbD_and, BitVec.getLsbD_append]
  interval_cases i <;> simp

end Sys2Proof

open Sys2Proof

/-- The word of an instruction, masked as its row says, is its row's pattern. -/
def Sys2Proof.Laws.EncodesItsRow.Statement (i : Instr) : Prop :=
  encode i &&& i.row.mask = i.row.pattern

open Sys2Proof.Laws.EncodesItsRow

theorem Sys2Proof.Laws.EncodesItsRow.cls : Statement .cls := rfl

theorem Sys2Proof.Laws.EncodesItsRow.ret : Statement .ret := rfl

theorem Sys2Proof.Laws.EncodesItsRow.sys (nnn : Addr12) : Statement (.sys nnn) :=
  (and_mask_NNN _ _).trans rfl

theorem Sys2Proof.Laws.EncodesItsRow.jp (nnn : Addr12) : Statement (.jp nnn) :=
  (and_mask_NNN _ _).trans rfl

theorem Sys2Proof.Laws.EncodesItsRow.call (nnn : Addr12) : Statement (.call nnn) :=
  (and_mask_NNN _ _).trans rfl

theorem Sys2Proof.Laws.EncodesItsRow.seImm (x : Nibble) (kk : Byte) : Statement (.seImm x kk) :=
  (and_mask_XKK _ _ _).trans rfl

theorem Sys2Proof.Laws.EncodesItsRow.sneImm (x : Nibble) (kk : Byte) : Statement (.sneImm x kk) :=
  (and_mask_XKK _ _ _).trans rfl

theorem Sys2Proof.Laws.EncodesItsRow.seReg (x y n : Nibble) : Statement (.seReg x y n) :=
  (and_mask_XYN _ _ _ _).trans rfl

theorem Sys2Proof.Laws.EncodesItsRow.ldImm (x : Nibble) (kk : Byte) : Statement (.ldImm x kk) :=
  (and_mask_XKK _ _ _).trans rfl

theorem Sys2Proof.Laws.EncodesItsRow.addImm (x : Nibble) (kk : Byte) : Statement (.addImm x kk) :=
  (and_mask_XKK _ _ _).trans rfl

theorem Sys2Proof.Laws.EncodesItsRow.ldReg (x y : Nibble) : Statement (.ldReg x y) :=
  (and_mask_XY _ _ _ _).trans rfl

theorem Sys2Proof.Laws.EncodesItsRow.orReg (x y : Nibble) : Statement (.orReg x y) :=
  (and_mask_XY _ _ _ _).trans rfl

theorem Sys2Proof.Laws.EncodesItsRow.andReg (x y : Nibble) : Statement (.andReg x y) :=
  (and_mask_XY _ _ _ _).trans rfl

theorem Sys2Proof.Laws.EncodesItsRow.xorReg (x y : Nibble) : Statement (.xorReg x y) :=
  (and_mask_XY _ _ _ _).trans rfl

theorem Sys2Proof.Laws.EncodesItsRow.addReg (x y : Nibble) : Statement (.addReg x y) :=
  (and_mask_XY _ _ _ _).trans rfl

theorem Sys2Proof.Laws.EncodesItsRow.subReg (x y : Nibble) : Statement (.subReg x y) :=
  (and_mask_XY _ _ _ _).trans rfl

theorem Sys2Proof.Laws.EncodesItsRow.shr (x y : Nibble) : Statement (.shr x y) :=
  (and_mask_XY _ _ _ _).trans rfl

theorem Sys2Proof.Laws.EncodesItsRow.subnReg (x y : Nibble) : Statement (.subnReg x y) :=
  (and_mask_XY _ _ _ _).trans rfl

theorem Sys2Proof.Laws.EncodesItsRow.shl (x y : Nibble) : Statement (.shl x y) :=
  (and_mask_XY _ _ _ _).trans rfl

theorem Sys2Proof.Laws.EncodesItsRow.sneReg (x y n : Nibble) : Statement (.sneReg x y n) :=
  (and_mask_XYN _ _ _ _).trans rfl

theorem Sys2Proof.Laws.EncodesItsRow.ldI (nnn : Addr12) : Statement (.ldI nnn) :=
  (and_mask_NNN _ _).trans rfl

theorem Sys2Proof.Laws.EncodesItsRow.jpV0 (nnn : Addr12) : Statement (.jpV0 nnn) :=
  (and_mask_NNN _ _).trans rfl

theorem Sys2Proof.Laws.EncodesItsRow.rnd (x : Nibble) (kk : Byte) : Statement (.rnd x kk) :=
  (and_mask_XKK _ _ _).trans rfl

theorem Sys2Proof.Laws.EncodesItsRow.drw (x y n : Nibble) : Statement (.drw x y n) :=
  (and_mask_XYN _ _ _ _).trans rfl

theorem Sys2Proof.Laws.EncodesItsRow.skp (x : Nibble) : Statement (.skp x) :=
  (and_mask_X _ _ _).trans rfl

theorem Sys2Proof.Laws.EncodesItsRow.sknp (x : Nibble) : Statement (.sknp x) :=
  (and_mask_X _ _ _).trans rfl

theorem Sys2Proof.Laws.EncodesItsRow.ldVxDt (x : Nibble) : Statement (.ldVxDt x) :=
  (and_mask_X _ _ _).trans rfl

theorem Sys2Proof.Laws.EncodesItsRow.ldVxK (x : Nibble) : Statement (.ldVxK x) :=
  (and_mask_X _ _ _).trans rfl

theorem Sys2Proof.Laws.EncodesItsRow.ldDtVx (x : Nibble) : Statement (.ldDtVx x) :=
  (and_mask_X _ _ _).trans rfl

theorem Sys2Proof.Laws.EncodesItsRow.ldStVx (x : Nibble) : Statement (.ldStVx x) :=
  (and_mask_X _ _ _).trans rfl

theorem Sys2Proof.Laws.EncodesItsRow.addIVx (x : Nibble) : Statement (.addIVx x) :=
  (and_mask_X _ _ _).trans rfl

theorem Sys2Proof.Laws.EncodesItsRow.ldFVx (x : Nibble) : Statement (.ldFVx x) :=
  (and_mask_X _ _ _).trans rfl

theorem Sys2Proof.Laws.EncodesItsRow.ldBVx (x : Nibble) : Statement (.ldBVx x) :=
  (and_mask_X _ _ _).trans rfl

theorem Sys2Proof.Laws.EncodesItsRow.ldMemVx (x : Nibble) : Statement (.ldMemVx x) :=
  (and_mask_X _ _ _).trans rfl

theorem Sys2Proof.Laws.EncodesItsRow.ldVxMem (x : Nibble) : Statement (.ldVxMem x) :=
  (and_mask_X _ _ _).trans rfl
end

