-- ==== Sys2Proof/Tests/Slice0.lean ====
section
/-! SUPPORT. Tests on small states, expected values from spec/95_test_vectors.md (its row named at each test)
and words from spec/30_encoding.md R95; and for each obligation with hypotheses a witness that meets them. -/

namespace Sys2Proof.Tests

open Sys2Proof.Machine Sys2Proof.Safety

/-! ## Well-formedness: the one check there is -/

theorem test_wf_sys_cls_word : (Instr.sys 0x0E0#12).wf = false := by decide
theorem test_wf_sys_ret_word : (Instr.sys 0x0EE#12).wf = false := by decide
theorem test_wf_sys_other : (Instr.sys 0x123#12).wf = true := by decide
theorem test_wf_others : Instr.cls.wf ∧ (Instr.drw 1#4 2#4 3#4).wf ∧ (Instr.shr 1#4 0xF#4).wf := by decide

/-! ## Decoding: one word written from R95 for every constructor -/

theorem test_decode_family_0 : decodeWord 0x00E0#16 = .instr .cls ∧ decodeWord 0x00EE#16 = .instr .ret ∧
    decodeWord 0x0123#16 = .instr (.sys 0x123#12) := by decide

theorem test_decode_jumps : decodeWord 0x1ABC#16 = .instr (.jp 0xABC#12) ∧
    decodeWord 0x2ABC#16 = .instr (.call 0xABC#12) ∧
    decodeWord 0xBF01#16 = .instr (.jpV0 0xF01#12) := by decide

theorem test_decode_skips : decodeWord 0x3342#16 = .instr (.seImm 3#4 0x42#8) ∧
    decodeWord 0x4343#16 = .instr (.sneImm 3#4 0x43#8) ∧
    decodeWord 0x512F#16 = .instr (.seReg 1#4 2#4 0xF#4) ∧
    decodeWord 0x9AB1#16 = .instr (.sneReg 0xA#4 0xB#4 1#4) ∧
    decodeWord 0xEF9E#16 = .instr (.skp 0xF#4) ∧ decodeWord 0xE4A1#16 = .instr (.sknp 4#4) := by decide

theorem test_decode_immediates : decodeWord 0x600A#16 = .instr (.ldImm 0#4 0x0A#8) ∧
    decodeWord 0x70FF#16 = .instr (.addImm 0#4 0xFF#8) ∧
    decodeWord 0xC20F#16 = .instr (.rnd 2#4 0x0F#8) := by decide

theorem test_decode_family_8 : decodeWord 0x8120#16 = .instr (.ldReg 1#4 2#4) ∧
    decodeWord 0x8121#16 = .instr (.orReg 1#4 2#4) ∧ decodeWord 0x8122#16 = .instr (.andReg 1#4 2#4) ∧
    decodeWord 0x8123#16 = .instr (.xorReg 1#4 2#4) ∧ decodeWord 0x8124#16 = .instr (.addReg 1#4 2#4) ∧
    decodeWord 0x8125#16 = .instr (.subReg 1#4 2#4) ∧ decodeWord 0x8AF6#16 = .instr (.shr 0xA#4 0xF#4) ∧
    decodeWord 0x8127#16 = .instr (.subnReg 1#4 2#4) ∧
    decodeWord 0x8A0E#16 = .instr (.shl 0xA#4 0#4) := by decide

theorem test_decode_index_and_display : decodeWord 0xA123#16 = .instr (.ldI 0x123#12) ∧
    decodeWord 0xD123#16 = .instr (.drw 1#4 2#4 3#4) := by decide

theorem test_decode_family_F : decodeWord 0xF307#16 = .instr (.ldVxDt 3#4) ∧
    decodeWord 0xF20A#16 = .instr (.ldVxK 2#4) ∧ decodeWord 0xF315#16 = .instr (.ldDtVx 3#4) ∧
    decodeWord 0xF318#16 = .instr (.ldStVx 3#4) ∧ decodeWord 0xF21E#16 = .instr (.addIVx 2#4) ∧
    decodeWord 0xF529#16 = .instr (.ldFVx 5#4) ∧ decodeWord 0xF333#16 = .instr (.ldBVx 3#4) ∧
    decodeWord 0xFF55#16 = .instr (.ldMemVx 0xF#4) ∧
    decodeWord 0xF265#16 = .instr (.ldVxMem 2#4) := by decide

/-- 95_test_vectors section 2.7, rejected words. -/
theorem test_decode_rejects : decodeWord 0x8128#16 = .reject (.family8 8#4) ∧
    decodeWord 0x812F#16 = .reject (.family8 0xF#4) ∧ decodeWord 0xE0A0#16 = .reject (.familyE 0xA0#8) ∧
    decodeWord 0xF175#16 = .reject (.familyF 0x75#8) ∧ decode [0x60#8] = .reject .truncated := by decide

/-- R64: the high byte lies at the lower address. -/
theorem test_decode_big_endian : decode [0x60#8, 0x0A#8, 0xFF#8] = .instr (.ldImm 0#4 0x0A#8) ∧
    bytesOfWord 0x600A#16 = [0x60#8, 0x0A#8] ∧ wordOfBytes 0x13#8 0x00#8 = 0x1300#16 := by decide

theorem test_decodeTableWord : decodeTableWord 16 0xF265 = some (.ldVxMem 2#4) ∧
    decodeTableWord 16 0x812D = none := by decide

/-! ## One step

`Fresh` of 95_test_vectors: the state after reset, with inputs `keys` and `rnd` and no ticks. -/

/-- Present one turn's inputs. -/
def inputs (s : State) (keys : BitVec 16) (rnd : Byte) : State := { s with turns := [⟨keys, rnd, 0⟩] }

/-- A fresh state with the word `w` at 0x200 and every input 0. -/
def fresh (w : Word) : State := (inputs State.reset 0#16 0#8).placeWord w

/-- The same with two registers preset, and VF = 0x77. -/
def fresh2 (w : Word) (v0 v1 : Byte) : State :=
  (((fresh w).setReg vf 0x77#8).setReg 0#4 v0).setReg 1#4 v1

/-- Put `pc` elsewhere and the word there. -/
def freshAt (pc w : Word) : State := (fresh 0#16).setPc pc |>.placeWord w

/-- Set the stack depth. -/
def depth (s : State) (d : Fin 17) : State := { s with sp := d }

/-- The step completes in a state that meets `p`. -/
def after (s : State) (p : State → Bool) : Bool :=
  match step s with
  | .next t => p t
  | _ => false

/-- The step faults with `f`. -/
def faults (s : State) (f : Fault) : Bool :=
  match step s with
  | .fault g => g == f
  | _ => false

/-- The registers `V[0]`, `V[1]`, VF and `pc` after the step (95_test_vectors section 2.3). -/
def alu (s : State) (v0 v1 v15 : Byte) : Bool :=
  after s fun t => t.reg 0#4 == v0 && t.reg 1#4 == v1 && t.reg vf == v15 && t.pc == 0x202#16

/-- The pixels on after the step, as (column, row) in row order. -/
def pixelsOn (s : State) : List (Nat × Nat) :=
  ((List.range 32).map fun r =>
    ((List.range 64).filter fun c => Framebuffer.pixel s.fb r c).map fun c => (c, r)).flatten

/-! ### Control flow, section 2.1 -/

theorem test_jp_K1 : after (fresh 0x1ABC#16) (fun t => t.pc == 0xABC#16) := by decide
theorem test_call_K4 : after (fresh 0x2300#16)
    (fun t => t.pc == 0x300#16 && t.sp == 1 && t.stack[0] == 0x202#16) := by decide
theorem test_call_K6 : faults (depth (fresh 0x2ABC#16) 16) .stackOverflow := by decide
theorem test_ret_K9 : after { depth (fresh 0x00EE#16) 1 with stack := (fresh 0#16).stack.set 0 0x1000#16 }
    (fun t => t.pc == 0x1000#16 && t.sp == 0 && t.stack[0] == 0x1000#16) := by decide
theorem test_ret_K8 : faults (fresh 0x00EE#16) .stackUnderflow := by decide
theorem test_jpV0_K11 : after ((fresh 0xBF00#16).setReg 0#4 0xFF#8) (fun t => t.pc == 0xFFF#16) := by decide
theorem test_jpV0_K12 : faults ((fresh 0xBF01#16).setReg 0#4 0xFF#8) .memoryBounds := by decide
theorem test_fetch_K14 : faults ((fresh 0#16).setPc 0xFFF#16) .memoryBounds := by decide
theorem test_fetch_K15 : after (freshAt 0xFFE#16 0x6012#16)
    (fun t => t.reg 0#4 == 0x12#8 && t.pc == 0x1000#16) := by decide
theorem test_fetch_K16 : after (freshAt 0x201#16 0x6122#16)
    (fun t => t.reg 1#4 == 0x22#8 && t.pc == 0x203#16) := by decide
theorem test_sys_K17 : faults (fresh 0x0123#16) .decodeFailure := by decide
theorem test_reject_faults : faults (fresh 0xE19F#16) .decodeFailure := by decide

/-! ### Skips, section 2.2 -/

theorem test_seImm_S1 : after ((fresh 0x3342#16).setReg 3#4 0x42#8) (·.pc == 0x204#16) := by decide
theorem test_seImm_S2 : after ((fresh 0x3343#16).setReg 3#4 0x42#8) (·.pc == 0x202#16) := by decide
theorem test_sneImm_S3 : after ((fresh 0x4342#16).setReg 3#4 0x42#8) (·.pc == 0x202#16) := by decide
theorem test_sneImm_S4 : after ((fresh 0x4343#16).setReg 3#4 0x42#8) (·.pc == 0x204#16) := by decide
theorem test_seReg_S6 : after (((fresh 0x5120#16).setReg 1#4 0x7F#8).setReg 2#4 0x7E#8)
    (·.pc == 0x202#16) := by decide
theorem test_seReg_S7 : after (((fresh 0x5127#16).setReg 1#4 1#8).setReg 2#4 1#8)
    (·.pc == 0x204#16) := by decide
theorem test_sneReg_S8 : after (((fresh 0x9120#16).setReg 1#4 1#8).setReg 2#4 2#8)
    (·.pc == 0x204#16) := by decide
theorem test_sneReg_S12 : after ((fresh 0x9110#16).setReg 1#4 3#8) (·.pc == 0x202#16) := by decide
theorem test_skp_K2 : after (inputs ((freshAt 0x210#16 0xE49E#16).setReg 4#4 0x05#8) 0xFFDF#16 0#8)
    (·.pc == 0x212#16) := by decide
theorem test_skp_K3 : after (inputs ((freshAt 0x210#16 0xE49E#16).setReg 4#4 0x15#8) 0x0020#16 0#8)
    (·.pc == 0x214#16) := by decide
theorem test_sknp_K4 : after (inputs ((freshAt 0x210#16 0xE4A1#16).setReg 4#4 0x05#8) 0x0000#16 0#8)
    (·.pc == 0x214#16) := by decide
theorem test_sknp_K6 : after (inputs ((freshAt 0x210#16 0xE4A1#16).setReg 4#4 0x0F#8) 0x8000#16 0#8)
    (·.pc == 0x212#16) := by decide

/-! ### ALU, section 2.3 -/

theorem test_ldImm_F10 : after (fresh 0x6FAB#16) (fun t => t.reg vf == 0xAB#8) := by decide
theorem test_addImm_I2 : alu (fresh2 0x70FF#16 0x05#8 0#8) 0x04#8 0#8 0x77#8 := by decide
theorem test_addImm_F9 : after ((fresh 0x7F01#16).setReg vf 0xFF#8) (fun t => t.reg vf == 0#8) := by decide
theorem test_ldReg_A21 : alu (fresh2 0x8010#16 0x12#8 0x34#8) 0x34#8 0x34#8 0x77#8 := by decide
theorem test_orReg_A18 : alu (fresh2 0x8011#16 0xF0#8 0x0F#8) 0xFF#8 0x0F#8 0x77#8 := by decide
theorem test_andReg_A19 : alu (fresh2 0x8012#16 0xF0#8 0x3C#8) 0x30#8 0x3C#8 0x77#8 := by decide
theorem test_xorReg_A20 : alu (fresh2 0x8013#16 0xF0#8 0x3C#8) 0xCC#8 0x3C#8 0x77#8 := by decide
theorem test_addReg_A1 : alu (fresh2 0x8014#16 0xFF#8 0x01#8) 0x00#8 0x01#8 1#8 := by decide
theorem test_addReg_F2 : after (((fresh 0x8FE4#16).setReg vf 1#8).setReg 14#4 0#8)
    (fun t => t.reg vf == 0#8) := by decide
theorem test_subReg_A5 : alu (fresh2 0x8015#16 0x10#8 0x20#8) 0xF0#8 0x20#8 0#8 := by decide
theorem test_subReg_A6 : alu (fresh2 0x8015#16 0x20#8 0x20#8) 0x00#8 0x20#8 1#8 := by decide
theorem test_shr_A12 : alu (fresh2 0x8016#16 0x05#8 0xAA#8) 0x02#8 0xAA#8 1#8 := by decide
theorem test_shr_A13 : alu (fresh2 0x8016#16 0x80#8 0#8) 0x40#8 0#8 0#8 := by decide
theorem test_subnReg_A10 : alu (fresh2 0x8017#16 0x20#8 0x10#8) 0xF0#8 0x10#8 0#8 := by decide
theorem test_subnReg_F5 : after (((fresh 0x8FE7#16).setReg vf 9#8).setReg 14#4 3#8)
    (fun t => t.reg vf == 0#8) := by decide
theorem test_shl_A15 : alu (fresh2 0x801E#16 0x81#8 0xAA#8) 0x02#8 0xAA#8 1#8 := by decide
theorem test_shl_F7 : after ((fresh 0x8F0E#16).setReg vf 0x7F#8) (fun t => t.reg vf == 0#8) := by decide
theorem test_rnd_N1 : after (inputs (fresh 0xC20F#16) 0#16 0xA7#8) (fun t => t.reg 2#4 == 0x07#8) := by
  decide

/-! ### Index register and memory, section 2.4 -/

theorem test_ldI_M2 : after ((fresh 0xAFFF#16).setI 0xFFFF#16) (fun t => t.i == 0x0FFF#16) := by decide
theorem test_addI_M4 : after ((((fresh 0xF21E#16).setI 0x0FFF#16).setReg 2#4 1#8).setReg vf 0x55#8)
    (fun t => t.i == 0x1000#16 && t.reg vf == 0x55#8) := by decide
theorem test_addI_M6 : after (((fresh 0xF21E#16).setI 0xFF80#16).setReg 2#4 0xFF#8)
    (fun t => t.i == 0x007F#16) := by decide
/-- M10, with FONT_BASE left open: 50 bytes above it. -/
theorem test_ldF_M10 : exec (.ldFVx 5#4) ((fresh 0#16).setReg 5#4 0x1A#8) =
    .next ((((fresh 0#16).setReg 5#4 0x1A#8).setI (BitVec.ofNat 16 (Config.fontBase + 50))).advance) := rfl
theorem test_ldB_M16 : after (((fresh 0xF333#16).setI 4093#16).setReg 3#4 254#8)
    (fun t => Memory.readBytes t.mem 4093 3 == [2#8, 5#8, 4#8]) := by decide
theorem test_ldB_M17 : faults (((fresh 0xF333#16).setI 4094#16).setReg 3#4 254#8) .memoryBounds := by decide
theorem test_ldMem_M20 : faults ((fresh 0xFF55#16).setI 4081#16) .memoryBounds := by decide
/-- After M19, with x = 2. -/
theorem test_ldMem_M19 :
    after ((((((fresh 0xF255#16).setI 0x300#16).setReg 0#4 0xA0#8).setReg 1#4 0xA1#8).setReg 2#4 0xA2#8).setReg
      3#4 0xA3#8)
    (fun t => Memory.readBytes t.mem 0x300 4 == [0xA0#8, 0xA1#8, 0xA2#8, 0#8] && t.i == 0x300#16) := by
  decide
theorem test_ldVxMem_M22 :
    after ((((fresh 0xF265#16).setI 0x400#16).setReg 3#4 0x99#8).setMem
      (Memory.writeBytes (fresh 0xF265#16).mem 0x400 [1#8, 2#8, 3#8, 4#8]))
    (fun t => t.reg 0#4 == 1#8 && t.reg 1#4 == 2#8 && t.reg 2#4 == 3#8 && t.reg 3#4 == 0x99#8 &&
      t.i == 0x400#16) := by decide
theorem test_ldVxMem_M23 : faults ((fresh 0xF165#16).setI 4095#16) .memoryBounds := by decide

/-! ### Display, section 2.5 -/

theorem test_cls_D8 : after { (fresh2 0x00E0#16 0#8 0#8) with fb := Vector.replicate 32 0xFF#64 }
    (fun t => t.fb == Vector.replicate 32 0#64 && t.reg vf == 0x77#8) := by decide

/-- The state of D3. -/
def d3 : State :=
  ((((fresh 0xD121#16).setI 0x300#16).setReg 1#4 0xFF#8).setReg 2#4 0xFF#8).setMem
    (Memory.write (fresh 0xD121#16).mem 0x300 0x80#8)

theorem test_drw_D3 : after d3 (fun t => pixelsOn t == [(63, 31)] && t.reg vf == 0#8) := by decide

/-- The state of D1 with the third sprite row dropped and pixel (0, 31) on beforehand. -/
def d1 : State :=
  ((((fresh 0xD122#16).setI 0x300#16).setReg 1#4 60#8).setReg 2#4 31#8).setMem
    (Memory.writeBytes (fresh 0xD122#16).mem 0x300 [0xFF#8, 0x81#8]) |>.setFb
    (Framebuffer.flip State.reset.fb 31 0)

/-- After D1 and D2: both axes wrap, and a pixel turned off is a collision. -/
theorem test_drw_D2 : after d1 (fun t => t.reg vf == 1#8 &&
    pixelsOn t == [(3, 0), (60, 0), (1, 31), (2, 31), (3, 31), (60, 31), (61, 31), (62, 31), (63, 31)]) := by
  decide

/-! ### Timers and key wait, section 2.6 -/

theorem test_ldDt_T1 : after ((fresh 0xF315#16).setReg 3#4 0x3C#8) (fun t => t.dt == 0x3C#8) := by decide
theorem test_ldSt_T2 : after ((fresh 0xF318#16).setReg 3#4 2#8) (fun t => t.st == 2#8 && t.soundOn) := by
  decide
theorem test_ldVxDt_T3 : after ((fresh 0xF307#16).setDt 0x11#8)
    (fun t => t.reg 3#4 == 0x11#8 && t.dt == 0x11#8) := by decide
theorem test_tick_T4_T5 : tickTimer 0#8 = 0#8 ∧ tickTimer 1#8 = 0#8 ∧ tickTimer 255#8 = 254#8 := by decide
theorem test_ldVxK_W1 : after (fresh 0xF20A#16)
    (fun t => t.mode == .awaitingKey 2#4 && t.pc == 0x200#16 && t.awaitingKey) := by decide
theorem test_ldVxK_W4 : after (inputs (fresh 0xF20A#16) 0x8000#16 0#8)
    (fun t => t.reg 2#4 == 0x0F#8 && t.pc == 0x202#16 && t.mode == .running) := by decide
theorem test_wait_W3 : after (inputs ((fresh 0xF20A#16).setMode (.awaitingKey 2#4)) 0x0A00#16 0#8)
    (fun t => t.reg 2#4 == 9#8 && t.pc == 0x202#16 && t.mode == .running) := by decide

/-- Two ticks after the step, as the turn says (T6). -/
theorem test_turn_ticks : after { fresh 0x1200#16 with st := 2#8, dt := 1#8, turns := [⟨0#16, 0#8, 2⟩] }
    (fun t => t.st == 0#8 && t.dt == 0#8 && t.turns == [] && t.turnNo == 1) := by decide

/-- The scenario S2, set up by host writes (R37): V0 = 0xFF, V1 = 0x01 and the word 0x8014 give V0 = 0, VF = 1. -/
theorem test_hostWrites_S2 :
    (match State.reset.hostWrites [.byte 0x200 0x80#8, .byte 0x201 0x14#8, .reg 0#4 0xFF#8, .reg 1#4 0x01#8] with
    | .next s => after s fun t => t.reg 0#4 == 0#8 && t.reg vf == 1#8
    | _ => false) = true := by decide

/-- K7, set up by host writes: RET takes `stack[2]`. -/
theorem test_hostWrites_K7 :
    (match (fresh 0x00EE#16).hostWrites [.sp 2, .slot 0 0x0222#16, .slot 1 0x0456#16] with
    | .next s => after s fun t => t.pc == 0x456#16 && t.sp == 1 && t.stack[1] == 0x0456#16
    | _ => false) = true := by decide

/-- The word the host stores for the next fetch is fetched. -/
theorem test_withFetchWord : (State.reset.withFetchWord 16 0x600A).activity = .run (.ldImm 0#4 0x0A#8) := by
  decide

/-! ## Witnesses: for each obligation with hypotheses, concrete data that meets them, at the boundary of every
clause. Each is named after its obligation. -/

/-- The outcome of an instruction is a next state. -/
def completes (i : Instr) (s : State) : Bool :=
  match exec i s with
  | .next _ => true
  | _ => false

/-- The outcome of an instruction is this fault. -/
def stops (i : Instr) (s : State) (f : Fault) : Bool :=
  match exec i s with
  | .fault g => g == f
  | _ => false

theorem witness_DecodeOfEncodeIsTheInstruction :
    (Instr.sys 0x123#12).wf = true ∧ (Instr.drw 0xF#4 0#4 0xF#4).wf = true := by decide

theorem witness_EncodeOfDecodeIsTheWord : decodeWord 0x8AF6#16 = .instr (.shr 0xA#4 0xF#4) := by decide

/-- The first clause; the second for a row that is not SYS; for SYS on either side of the two words it loses. -/
theorem witness_DecodeFollowsTheOpcodeMap :
    decodeWord 0xF265#16 = .instr (.ldVxMem 2#4) ∧ (Instr.ldVxMem 0#4).row.matchesWord 0xF265#16 = true ∧
      (Instr.ldVxMem 0#4).row ≠ (Instr.sys 0#12).row ∧
      (Instr.sys 0#12).row.matchesWord 0x00E1#16 = true ∧ (0x00E1#16 ≠ 0x00E0#16 ∧ 0x00E1#16 ≠ 0x00EE#16) ∧
      (Instr.sys 0#12).row.matchesWord 0x00E0#16 = true ∧ Instr.cls.row.matchesWord 0x00E0#16 = true := by
  decide

/-- Illegal words (SYS space, families 8, E, F) and a legal one at the last address a fetch may start at. -/
theorem witness_IllegalWordsRaiseDecodeFailure :
    (∀ w, (freshAt 0xFFE#16 w).mode = .running ∧ (freshAt 0xFFE#16 w).pc.toNat = 4094) ∧
    (codeWord (freshAt 0xFFE#16 0x00EF#16) = 0x00EF#16 ∧ codeWord (freshAt 0xFFE#16 0x8128#16) = 0x8128#16 ∧
      codeWord (freshAt 0xFFE#16 0xE19F#16) = 0xE19F#16 ∧ codeWord (freshAt 0xFFE#16 0xF1FF#16) = 0xF1FF#16 ∧
      codeWord (freshAt 0xFFE#16 0x6012#16) = 0x6012#16) ∧
    (IllegalWord 0x00EF#16 ∧ IllegalWord 0x8128#16 ∧ IllegalWord 0xE19F#16 ∧ IllegalWord 0xF1FF#16) ∧
    ¬IllegalWord 0x6012#16 := by
  refine ⟨fun _ => ⟨rfl, rfl⟩, ⟨rfl, rfl, rfl, rfl, rfl⟩, ?_, ?_⟩ <;> (unfold IllegalWord; decide)

theorem witness_StepRunsTheDecodedInstruction :
    (freshAt 0xFFE#16 0x6012#16).mode = .running ∧ (freshAt 0xFFE#16 0x6012#16).pc.toNat ≤ 4094 ∧
      decode [codeByte (freshAt 0xFFE#16 0x6012#16) 0, codeByte (freshAt 0xFFE#16 0x6012#16) 1] =
        .instr (.ldImm 0#4 0x12#8) ∧ (Instr.ldImm 0#4 0x12#8).wf = true ∧
      completes (.ldImm 0#4 0x12#8) (freshAt 0xFFE#16 0x6012#16) = true := by decide

/-- Each of the three cases: the fetch just out of range; a rejected word at the last fetch address; the
instruction's own check there. -/
theorem witness_StepFaultsInPriorityOrder :
    faults ((fresh 0#16).setPc 4095#16) .memoryBounds = true ∧
      faults (freshAt 0xFFE#16 0xE19F#16) .decodeFailure = true ∧
      faults (depth (freshAt 0xFFE#16 0x2ABC#16) 16) .stackOverflow = true ∧
      faults ((freshAt 0xFFE#16 0x6012#16).setMode (.awaitingKey 1#4)) .decodeFailure = false := by decide

theorem witness_FaultRepeatsWhateverTheInputs : step State.reset = .fault .decodeFailure := rfl

theorem witness_TickDecrementsBothTimers :
    ((fresh 0#16).setDt 1#8).dt ≠ 0#8 ∧ (fresh 0#16).dt = 0#8 ∧ ((fresh 0#16).setSt 255#8).st ≠ 0#8 ∧
      (fresh 0#16).st = 0#8 := by decide

/-- The third clause: a step that is no LD DT,Vx, with the delay timer running. -/
theorem witness_TimersFallByTheTicksOfTheTurn :
    ∃ s t : State, step s = .next t ∧ (∀ x, s.activity ≠ .run (.ldDtVx x)) ∧ s.dt = 0xFF#8 :=
  ⟨(fresh 0x1200#16).setDt 0xFF#8, _, rfl, by decide, rfl⟩

/-- The wait with no key, and with only the highest key. -/
theorem witness_WaitingStepChecksTheKeys :
    (∃ s : State, s.mode = .awaitingKey 2#4 ∧ s.keys = 0#16) ∧
      ∃ s : State, s.mode = .awaitingKey 2#4 ∧ s.keys = 0x8000#16 :=
  ⟨⟨(fresh 0xF20A#16).setMode (.awaitingKey 2#4), rfl, rfl⟩,
    ⟨inputs ((fresh 0xF20A#16).setMode (.awaitingKey 2#4)) 0x8000#16 0#8, rfl, rfl⟩⟩

/-- Entering the wait; staying in it; leaving it. -/
theorem witness_OnlyLdVxKWaitsAndOnlyAKeyEndsIt :
    (∃ s t : State, s.mode = .running ∧ step s = .next t ∧ t.mode = .awaitingKey 2#4) ∧
    (∃ s t : State, s.mode = .awaitingKey 2#4 ∧ step s = .next t ∧ s.keys = 0#16) ∧
    ∃ s t : State, s.mode = .awaitingKey 2#4 ∧ step s = .next t ∧ t.mode = .running :=
  ⟨⟨fresh 0xF20A#16, _, rfl, rfl, rfl⟩,
    ⟨(fresh 0xF20A#16).setMode (.awaitingKey 2#4), _, rfl, rfl, rfl⟩,
    ⟨inputs ((fresh 0xF20A#16).setMode (.awaitingKey 2#4)) 0x8000#16 0#8, _, rfl, rfl, rfl⟩⟩

/-- A running good state and a waiting one, each with a next state. -/
theorem witness_StepKeepsTheGoodState :
    (∃ s t : State, Inv s ∧ s.mode = .running ∧ step s = .next t) ∧
      ∃ s t : State, Inv s ∧ s.mode = .awaitingKey 2#4 ∧ step s = .next t :=
  ⟨⟨fresh 0x6012#16, _, ⟨by decide, by decide, by decide, by decide⟩, rfl, rfl⟩,
    ⟨(fresh 0xF20A#16).setMode (.awaitingKey 2#4), _,
      ⟨by decide, by decide, by decide, fun t h => by cases h; rfl⟩, rfl, rfl⟩⟩

/-- The longest image that is loaded and the shortest that is not. -/
theorem witness_LoadCopiesTheImage :
    (List.replicate 3584 1#8).length ≤ 3584 ∧ 3584 < (List.replicate 3585 1#8).length := by
  simp only [List.length_replicate]; omega

/-- The last address a host write may name, and the first it may not. -/
theorem witness_HostWritesSetOneByteOrRegister : 4095 ≤ 4095 ∧ 4095 < 4096 := by decide

/-- The state after reset, and a launch state with a program. -/
theorem witness_HostWritesReachEveryLaunchState :
    ∀ a, 4095 < a → Memory.read (fresh 0x6012#16).mem a = Memory.read State.reset.mem a := by
  intro a h
  have e : (fresh 0x6012#16).mem = [(0x200, 0x60#8), (0x201, 0x12#8)] := by decide
  rw [e]
  simp only [Memory.read, State.reset]
  rw [if_neg (by omega), if_neg (by omega)]

/-- The last pixel; a step that ends running, one that ends waiting, one that faults. -/
theorem witness_OutputsShowTheState : 31 < 32 ∧ 63 < 64 ∧
    stepResult (stepEvent (fresh 0x6012#16)) = some .ok ∧
    stepResult (stepEvent (fresh 0xF20A#16)) = some .awaiting ∧
    stepResult (stepEvent (fresh 0x8128#16)) = some (.fault .decodeFailure) := by decide

/-- The highest target that is in range, and the lowest that is not. -/
theorem witness_JpV0ValidatesItsTarget :
    (((fresh 0#16).setReg 0#4 0xFF#8).reg 0#4).toNat + (0xF00#12).toNat = 4095 ∧
      (((fresh 0#16).setReg 0#4 0xFF#8).reg 0#4).toNat + (0xF01#12).toNat = 4096 := by decide

theorem witness_CallPushesTheReturnAddress :
    (depth (fresh 0#16) 15).sp.val ≠ 16 ∧ (depth (fresh 0#16) 16).sp.val = 16 := by decide

theorem witness_RetPopsTheReturnAddress :
    (depth (fresh 0#16) 16).sp.val = 15 + 1 ∧ (depth (fresh 0#16) 1).sp.val = 0 + 1 ∧
      (fresh 0#16).sp.val = 0 := by decide

theorem witness_RetUndoesCall : completes (.call 0x300#12) (depth (fresh 0x2300#16) 15) = true := by decide

theorem witness_PcAdvancesByTheTable :
    (freshAt 0xFFE#16 0x3000#16).pc.toNat ≤ 4094 ∧
      completes (.seImm 0#4 0#8) (freshAt 0xFFE#16 0x3000#16) = true := by decide

/-- The last index at which three bytes fit, and the first at which they do not. -/
theorem witness_LdBStoresTheDecimalDigits :
    ((fresh 0#16).setI 4093#16).i.toNat + 2 ≤ 4095 ∧ 4095 < ((fresh 0#16).setI 4094#16).i.toNat + 2 := by
  decide

theorem witness_LdMemStoresTheRegisterBlock :
    ((fresh 0#16).setI 4080#16).i.toNat + (15#4).toNat ≤ 4095 ∧
      4095 < ((fresh 0#16).setI 4081#16).i.toNat + (15#4).toNat := by decide

theorem witness_LdVxMemLoadsTheRegisterBlock :
    ((fresh 0#16).setI 4080#16).i.toNat + (15#4).toNat ≤ 4095 ∧
      4095 < ((fresh 0#16).setI 4081#16).i.toNat + (15#4).toNat := by decide

/-- Both stores complete, running; the fetch at the last address there is, and one that finds a stored byte after
one that is not. -/
theorem witness_StoredBytesAreFetchedAtOnce :
    completes (.ldMemVx 1#4) ((fresh 0#16).setI 0x208#16) = true ∧
      completes (.ldBVx 1#4) ((fresh 0#16).setI 4093#16) = true ∧ (fresh 0#16).mode = .running ∧
      (4094#16).toNat ≤ 4094 ∧ (0x207#16).toNat ≤ 4094 := by decide

/-- No rows with `I` anywhere; one row at the last byte; two rows there, which do not fit. -/
theorem witness_DrwXorsTheSprite :
    ((0#4).toNat = 0 ∨ ((fresh 0#16).setI 0xFFFF#16).i.toNat + (0#4).toNat - 1 ≤ 4095) ∧
      ((1#4).toNat = 0 ∨ ((fresh 0#16).setI 4095#16).i.toNat + (1#4).toNat - 1 ≤ 4095) ∧
      (1 ≤ (2#4).toNat ∧ 4095 < ((fresh 0#16).setI 4095#16).i.toNat + (2#4).toNat - 1) := by decide

theorem witness_DrawingTwiceRestoresTheFramebuffer :
    (0#4) ≠ 15#4 ∧ (1#4) ≠ 15#4 ∧
      completes (.drw 0#4 1#4 2#4) ((fresh 0#16).setI 0x200#16) = true := by decide

theorem witness_LdVxKTakesAKeyOrWaits :
    (inputs (fresh 0#16) 0x8000#16 0#8).keys ≠ 0#16 ∧ (fresh 0#16).keys = 0#16 := by decide

theorem witness_RegistersWrittenAreThoseOfTheTable :
    completes (.ldVxMem 14#4) ((fresh 0#16).setI 0x200#16) = true ∧
      writesReg (.ldVxMem 14#4) 15#4 = false := by decide

theorem witness_RegistersReadAreThoseOfTheTable :
    readsReg (.shr 0#4 1#4) 1#4 = false ∧ writesReg (.shr 0#4 1#4) 1#4 = false := by decide

/-- An instruction that leaves all three spaces alone. -/
theorem witness_StorageSpacesAreSeparate :
    (∀ x y n, Instr.ldI 0#12 ≠ .drw x y n) ∧
      (∀ x, Instr.ldI 0#12 ≠ .ldBVx x ∧ Instr.ldI 0#12 ≠ .ldMemVx x ∧ Instr.ldI 0#12 ≠ .ldVxMem x) ∧
      Instr.ldI 0#12 ≠ .cls ∧ Instr.ldI 0#12 ≠ .ret ∧ ∀ nnn, Instr.ldI 0#12 ≠ .call nnn := by
  simp

/-- SKP, with the same keys and another draw; and an instruction that reads no input, with both changed. -/
theorem witness_InputsAreReadByFourInstructions :
    ((inputs (fresh 0#16) 1#16 0#8).keys = (inputs (fresh 0#16) 1#16 9#8).keys ∧
      ∀ x kk, Instr.skp 0#4 ≠ .rnd x kk) ∧
    (∀ x, Instr.cls ≠ .skp x ∧ Instr.cls ≠ .sknp x ∧ Instr.cls ≠ .ldVxK x) ∧
    ((inputs (fresh 0#16) 1#16 7#8).rnd = (inputs (fresh 0#16) 9#16 7#8).rnd ∧
      ∀ x, Instr.rnd 0#4 0#8 ≠ .skp x ∧ Instr.rnd 0#4 0#8 ≠ .sknp x ∧ Instr.rnd 0#4 0#8 ≠ .ldVxK x) ∧
    ∀ x kk, Instr.cls ≠ .rnd x kk := by
  refine ⟨⟨by decide, by simp⟩, by simp, ⟨by decide, by simp⟩, by simp⟩

theorem witness_OnlyCallAndRetMoveTheStackPointer :
    completes (.call 0x300#12) (depth (fresh 0#16) 15) = true ∧ completes .ret (depth (fresh 0#16) 1) = true ∧
      completes .cls (fresh 0#16) = true := by decide

theorem witness_AStoppedProgramStaysStopped : Stopped (fresh 0x1200#16) := by
  refine ⟨rfl, ?_, ?_⟩ <;> decide

end Sys2Proof.Tests
end

section
/-! The meaning of each instruction that can fault or wait, as one equation; every other instruction's meaning is
`.next` of a composition of the state's operations, which its definition shows. -/

namespace Sys2Proof.Proofs

open Sys2Proof.Machine Sys2Proof.Safety

/-- A guarded outcome that is a next state: the guard held. -/
theorem ite_eq_next {c : Prop} [Decidable c] {s t : State} {f : Fault}
    (h : (if c then .next s else .fault f : Result) = .next t) : c ∧ s = t := by
  split at h
  · cases h; exact ⟨‹c›, rfl⟩
  · cases h

/-- A guarded outcome that is a fault: the guard failed. -/
theorem ite_eq_fault {c : Prop} [Decidable c] {s : State} {f g : Fault}
    (h : (if c then .next s else .fault f : Result) = .fault g) : ¬c ∧ f = g := by
  split at h
  · cases h
  · cases h; exact ⟨‹¬c›, rfl⟩

theorem exec_ret (s : State) : exec .ret s =
    if _h : s.sp.val = 0 then .fault .stackUnderflow
    else .next ((s.setSp ⟨s.sp.val - 1, by omega⟩).setPc (s.stack[s.sp.val - 1]'(by omega))) := by
  by_cases h : s.sp.val = 0 <;> simp [exec, execRet, State.pop, raise, State.setSp, h]

theorem exec_call (nnn : Addr12) (s : State) : exec (.call nnn) s =
    if h : s.sp.val < 16 then
      .next (((s.setStack (s.stack.set s.sp.val (s.pc + 2#16) h)).setSp
        ⟨s.sp.val + 1, by omega⟩).setPc (addrWord nnn))
    else .fault .stackOverflow := by
  by_cases h : s.sp.val < 16 <;> simp [exec, execCall, State.push, raise, State.setSp, State.setStack, h]

theorem exec_jpV0 (nnn : Addr12) (s : State) : exec (.jpV0 nnn) s =
    if inRange ((s.reg 0#4).toNat + nnn.toNat) 1 then
      .next (s.setPc (BitVec.ofNat 16 ((s.reg 0#4).toNat + nnn.toNat)))
    else .fault .memoryBounds := rfl

/-- The canvas that DRW leaves: the sprite's `n` rows drawn on the framebuffer of `s`. -/
def drawn (x y n : Nibble) (s : State) : Canvas :=
  Canvas.drawRows { fb := s.fb, collision := false } (Memory.readBytes s.mem s.i.toNat n.toNat)
    (s.reg y).toNat (s.reg x).toNat

theorem exec_drw (x y n : Nibble) (s : State) : exec (.drw x y n) s =
    if inRange s.i.toNat n.toNat then
      .next ((s.setFb (drawn x y n s).fb).setReg vf (flagByte (drawn x y n s).collision)).advance
    else .fault .memoryBounds := by
  cases h : inRange s.i.toNat n.toNat <;> simp [exec, execDrw, State.readBlock, raise, drawn, h]

theorem exec_ldBVx (x : Nibble) (s : State) : exec (.ldBVx x) s =
    if inRange s.i.toNat 3 then
      .next (s.setMem (Memory.writeBytes s.mem s.i.toNat (decimalDigits (s.reg x)))).advance
    else .fault .memoryBounds := by
  cases h : inRange s.i.toNat 3 <;> simp [exec, execLdBVx, State.writeBlock, raise, h]

theorem exec_ldMemVx (x : Nibble) (s : State) : exec (.ldMemVx x) s =
    if inRange s.i.toNat (x.toNat + 1) then
      .next (s.setMem (Memory.writeBytes s.mem s.i.toNat (s.regBlock x))).advance
    else .fault .memoryBounds := by
  cases h : inRange s.i.toNat (x.toNat + 1) <;>
    simp [exec, execLdMemVx, State.writeBlock, State.blockI, ldmAdvancesI, raise, h]

theorem exec_ldVxMem (x : Nibble) (s : State) : exec (.ldVxMem x) s =
    if inRange s.i.toNat (x.toNat + 1) then
      .next (s.setRegs
        (loadRegs s.regs 0 (Memory.readBytes s.mem s.i.toNat (x.toNat + 1)))).advance
    else .fault .memoryBounds := by
  cases h : inRange s.i.toNat (x.toNat + 1) <;>
    simp [exec, execLdVxMem, State.readBlock, State.blockI, ldmAdvancesI, raise, h]

/-- LD Vx,K waits when no key is down and takes the least key in the same step otherwise (45_timers_keys R233). -/
theorem exec_ldVxK (x : Nibble) (s : State) : exec (.ldVxK x) s = .next (s.awaitCheck x) := by
  by_cases h : s.keys = 0#16 <;> simp [exec, execLdVxK, State.awaitCheck, h] <;> rfl

end Sys2Proof.Proofs
end

section
/-! What an instruction that completes can do to memory, the stack, `mode` and `pc`: said once, for the invariant
and for the rules over every instruction. -/

namespace Sys2Proof.Proofs

open Sys2Proof.Machine Sys2Proof.Safety

/-- `t` has the memory, the stack and the mode of `s`, and a `pc` that is an address or at most two instructions
further on. -/
structure KeepsStorage (s t : State) : Prop where
  mem : t.mem = s.mem
  sp : t.sp = s.sp
  stack : t.stack = s.stack
  mode : t.mode = s.mode
  pc : t.pc.toNat ≤ 4095 ∨ t.pc.toNat ≤ s.pc.toNat + 4

/-- The ways an instruction can complete. -/
inductive Effect (s : State) : Instr → State → Prop
  /-- Everything but CALL, RET, LD Vx,K and the stores. -/
  | keeps {i t} (hcall : ∀ nnn, i ≠ .call nnn) (hret : i ≠ .ret) (h : KeepsStorage s t) : Effect s i t
  /-- LD B and LD [I]: a run of bytes that fits in memory. -/
  | store {i} (hcall : ∀ nnn, i ≠ .call nnn) (hret : i ≠ .ret) (bs : List Byte)
      (fits : s.i.toNat + bs.length ≤ Config.memSize) :
      Effect s i (s.setMem (Memory.writeBytes s.mem s.i.toNat bs)).advance
  | call (nnn : Addr12) (h : s.sp.val < 16) :
      Effect s (.call nnn) (((s.setStack (s.stack.set s.sp.val (s.pc + 2#16) h)).setSp
        ⟨s.sp.val + 1, by omega⟩).setPc (addrWord nnn))
  | ret (h : s.sp.val ≠ 0) :
      Effect s .ret ((s.setSp ⟨s.sp.val - 1, by omega⟩).setPc (s.stack[s.sp.val - 1]'(by omega)))
  | wait (x : Nibble) : Effect s (.ldVxK x) (s.awaitCheck x)

/-! ### Where `pc` can go -/

theorem toNat_add_le (w v : Word) : (w + v).toNat ≤ w.toNat + v.toNat :=
  (BitVec.toNat_add w v).le.trans (Nat.mod_le _ _)

theorem advance_pc_le (s : State) : s.advance.pc.toNat ≤ s.pc.toNat + 2 := toNat_add_le _ _

theorem skipIf_pc_le (s : State) (c : Bool) : (s.skipIf c).pc.toNat ≤ s.pc.toNat + 4 := by
  refine (toNat_add_le s.pc _).trans (Nat.add_le_add_left ?_ _)
  cases c <;> decide

theorem addrWord_le (nnn : Addr12) : (addrWord nnn).toNat ≤ 4095 := by
  have := nnn.isLt
  simp only [addrWord, BitVec.truncate_eq_setWidth, BitVec.toNat_setWidth]
  omega

/-- After any change of registers, `I`, timers and framebuffer, `pc <- pc + 2` keeps the storage. -/
theorem KeepsStorage.advance {s u : State} (hmem : u.mem = s.mem) (hsp : u.sp = s.sp)
    (hstack : u.stack = s.stack) (hmode : u.mode = s.mode) (hpc : u.pc = s.pc) :
    KeepsStorage s u.advance :=
  ⟨hmem, hsp, hstack, hmode, .inr (by have := advance_pc_le u; rw [hpc] at this; omega)⟩

theorem KeepsStorage.skipIf (s : State) (c : Bool) : KeepsStorage s (s.skipIf c) :=
  ⟨rfl, rfl, rfl, rfl, .inr (skipIf_pc_le s c)⟩

theorem KeepsStorage.setPc (s : State) {w : Word} (h : w.toNat ≤ 4095) : KeepsStorage s (s.setPc w) :=
  ⟨rfl, rfl, rfl, rfl, .inl h⟩

/-! ### Every completing instruction has one of these effects -/

theorem exec_effect {i : Instr} {s t : State} (h : exec i s = .next t) : Effect s i t := by
  cases i with
  | sys nnn => cases h
  | ret =>
    rw [exec_ret] at h
    split at h
    · cases h
    · cases h; exact .ret ‹_›
  | call nnn =>
    rw [exec_call] at h
    split at h
    · cases h; exact .call nnn ‹_›
    · cases h
  | ldVxK x =>
    rw [exec_ldVxK] at h
    cases h; exact .wait x
  | ldBVx x =>
    rw [exec_ldBVx] at h
    obtain ⟨hr, rfl⟩ := ite_eq_next h
    exact .store (by simp) (by simp) _ (((inRange_iff _ _).1 hr).resolve_left (by decide))
  | ldMemVx x =>
    rw [exec_ldMemVx] at h
    obtain ⟨hr, rfl⟩ := ite_eq_next h
    refine .store (by simp) (by simp) _ ?_
    rw [length_regBlock]
    exact ((inRange_iff _ _).1 hr).resolve_left (Nat.succ_ne_zero _)
  | drw x y n =>
    rw [exec_drw] at h
    obtain ⟨-, rfl⟩ := ite_eq_next h
    exact .keeps nofun nofun (.advance rfl rfl rfl rfl rfl)
  | ldVxMem x =>
    rw [exec_ldVxMem] at h
    obtain ⟨-, rfl⟩ := ite_eq_next h
    exact .keeps nofun nofun (.advance rfl rfl rfl rfl rfl)
  | jpV0 nnn =>
    rw [exec_jpV0] at h
    obtain ⟨hr, rfl⟩ := ite_eq_next h
    refine .keeps nofun nofun (.setPc s ?_)
    have := ((inRange_iff _ _).1 hr).resolve_left (by decide)
    exact (Nat.mod_le _ _).trans (by omega)
  | jp nnn => cases h; exact .keeps nofun nofun (.setPc s (addrWord_le nnn))
  | seImm | sneImm | seReg | sneReg | skp | sknp =>
    cases h; exact .keeps nofun nofun (.skipIf s _)
  | _ => cases h; exact .keeps nofun nofun (.advance rfl rfl rfl rfl rfl)

/-! ### The key wait leaves the storage alone -/

@[simp] theorem awaitCheck_mem (t : Nibble) (s : State) : (s.awaitCheck t).mem = s.mem := by
  unfold State.awaitCheck; split <;> rfl

@[simp] theorem awaitCheck_sp (t : Nibble) (s : State) : (s.awaitCheck t).sp = s.sp := by
  unfold State.awaitCheck; split <;> rfl

@[simp] theorem awaitCheck_stack (t : Nibble) (s : State) : (s.awaitCheck t).stack = s.stack := by
  unfold State.awaitCheck; split <;> rfl

/-- The check either leaves the machine waiting where it stands, or running at the next instruction. -/
theorem awaitCheck_mode_pc (t : Nibble) (s : State) :
    ((s.awaitCheck t).mode = .awaitingKey t ∧ (s.awaitCheck t).pc = s.pc) ∨
      ((s.awaitCheck t).mode = .running ∧ (s.awaitCheck t).pc = s.pc + 2#16) := by
  by_cases h : s.keys = 0#16
  · rw [awaitCheck_none t s h]; exact .inl ⟨rfl, rfl⟩
  · rw [awaitCheck_some t s h]; exact .inr ⟨rfl, rfl⟩

end Sys2Proof.Proofs
end

section
/-! The invariant of the step: memory canonical, `pc` and the stack slots in bounds, a wait at its own
instruction (10_state R26, R33). -/

namespace Sys2Proof.Proofs

open Sys2Proof.Machine Sys2Proof.Safety

/-! ### What a fetch reads -/

/-- A fetch depends on memory and `pc` alone. -/
theorem fetch_congr {s t : State} (hmem : t.mem = s.mem) (hpc : t.pc = s.pc) : t.fetch = s.fetch := by
  rw [fetch_eq, fetch_eq, hmem, hpc]

theorem pc_le_of_fetch_run {s : State} {i : Instr} (h : s.fetch = .run i) : s.pc.toNat ≤ 4094 := by
  rw [fetch_eq] at h
  split at h
  · assumption
  · cases h

theorem activity_running {s : State} (h : s.mode = .running) : s.activity = s.fetch := by
  simp only [State.activity, h]

theorem activity_awaitingKey {s : State} {r : Nibble} (h : s.mode = .awaitingKey r) :
    s.activity = .wait r := by
  simp only [State.activity, h]

theorem fetch_ne_wait (s : State) (r : Nibble) : s.fetch ≠ .wait r := by
  rw [fetch_eq]
  split
  · split <;> simp
  · simp

/-! ### The invariant -/

/-- The invariant of a running state has no more to say than its bounds. -/
theorem inv_of_running {s : State} (hmem : Memory.wf s.mem = true) (hpc : s.pc.toNat ≤ 4098)
    (hstack : ∀ (k : Nat) (h : k < 16), (s.stack[k]'h).toNat ≤ 4096) (hmode : s.mode = .running) :
    Inv s :=
  ⟨hmem, hpc, hstack, fun t ht => by rw [hmode] at ht; cases ht⟩

theorem inv_endTurn {s : State} (h : Inv s) : Inv s.endTurn := by
  obtain ⟨hmem, hpc, hstack, hwait⟩ := h
  exact ⟨hmem, hpc, hstack, fun t ht => (fetch_congr rfl rfl).trans (hwait t ht)⟩

/-- The check of a key wait at its own LD Vx,K, whether the wait is pending or only now entered. -/
theorem inv_awaitCheck {s : State} {r : Nibble} (h : Inv s) (hf : s.fetch = .run (.ldVxK r)) :
    Inv (s.awaitCheck r) := by
  obtain ⟨hmem, hpc, hstack, -⟩ := h
  have hpc' := pc_le_of_fetch_run hf
  obtain ⟨hm, hp⟩ | ⟨hm, hp⟩ := awaitCheck_mode_pc r s
  · refine ⟨by simpa using hmem, by rw [hp]; exact hpc, by simpa using hstack, fun t ht => ?_⟩
    obtain rfl : r = t := by simpa [hm] using ht
    exact (fetch_congr (awaitCheck_mem r s) hp).trans hf
  · refine inv_of_running (by simpa using hmem) ?_ (by simpa using hstack) hm
    have := advance_pc_le s
    rw [hp, ← advance_pc]
    omega

/-- Storing a return address within the bounds keeps the slots within them. -/
theorem stack_set_le {v : Vector Word 16} {j : Nat} {w : Word} (hj : j < 16) (hw : w.toNat ≤ 4096)
    (h : ∀ (k : Nat) (hk : k < 16), (v[k]'hk).toNat ≤ 4096) (k : Nat) (hk : k < 16) :
    ((v.set j w hj)[k]'hk).toNat ≤ 4096 := by
  rw [Vector.getElem_set]
  split
  · exact hw
  · exact h k hk

/-- An instruction fetched by a running machine leaves a good state. -/
theorem inv_exec {s t : State} {i : Instr} (h : Inv s) (hmode : s.mode = .running)
    (hf : s.fetch = .run i) (he : exec i s = .next t) : Inv t := by
  have hpc := pc_le_of_fetch_run hf
  obtain ⟨hmem, -, hstack, -⟩ := id h
  cases exec_effect he with
  | keeps _ _ hk =>
    refine inv_of_running (by rwa [hk.mem]) ?_ (by simpa [hk.stack] using hstack) (hk.mode.trans hmode)
    rcases hk.pc with hp | hp <;> omega
  | store _ _ bs fits =>
    refine inv_of_running (wf_writeBytes _ _ _ fits hmem) ?_ hstack hmode
    exact (advance_pc_le _).trans (by simp only [setMem_pc]; omega)
  | call nnn hsp =>
    refine inv_of_running hmem ((addrWord_le nnn).trans (by decide)) ?_ hmode
    exact stack_set_le hsp ((advance_pc_le s).trans (by omega)) hstack
  | ret hsp =>
    exact inv_of_running hmem ((hstack _ _).trans (by decide)) hstack hmode
  | wait x => exact inv_awaitCheck h hf

theorem inv_stepEvent {s t : State} (h : Inv s) (he : stepEvent s = .next t) : Inv t := by
  unfold stepEvent at he
  cases hmode : s.mode with
  | awaitingKey r =>
    obtain ⟨-, -, -, hwait⟩ := id h
    rw [activity_awaitingKey hmode] at he
    cases he
    exact inv_awaitCheck h (hwait r hmode)
  | running =>
    rw [activity_running hmode] at he
    cases hf : s.fetch with
    | wait r => exact absurd hf (fetch_ne_wait s r)
    | run i => rw [hf] at he; exact inv_exec h hmode hf he
    | fail f => rw [hf] at he; cases he

/-- Settles O15: the `Step` event keeps the invariant, by the effects of an instruction and the check of the key
wait, and the end of the turn touches nothing it speaks of. -/
theorem stepKeepsTheGoodState : Obligations.StepKeepsTheGoodState := by
  unfold Obligations.StepKeepsTheGoodState
  intro s t h hstep
  obtain ⟨u, hu, rfl⟩ := mapNext_eq_next hstep
  exact inv_endTurn (inv_stepEvent h hu)

/-- Settles O16. -/
theorem resetIsAGoodState : Obligations.ResetIsAGoodState := by
  refine inv_of_running wf_nil (by decide) (fun k hk => ?_) rfl
  simp [State.reset]

end Sys2Proof.Proofs
end

section
/-! The rules over every instruction: the stack pointer (10_state R27, R28), the registers written and read (R22),
the caller's inputs (R34, R35). -/

namespace Sys2Proof.Proofs

open Sys2Proof.Machine Sys2Proof.Safety

/-! ### The stack -/

/-- Settles O50: of the effects of an instruction only CALL and RET move `sp`, and only CALL writes a slot. -/
theorem onlyCallAndRetMoveTheStackPointer : Obligations.OnlyCallAndRetMoveTheStackPointer := by
  unfold Obligations.OnlyCallAndRetMoveTheStackPointer
  intro i s t h
  cases exec_effect h with
  | keeps hcall hret hk =>
    exact ⟨fun ⟨nnn, e⟩ => absurd e (hcall nnn), fun e => absurd e hret, fun _ _ => hk.sp,
      fun k _ _ => by simp only [hk.stack], fun _ => hk.stack⟩
  | store hcall hret bs fits =>
    exact ⟨fun ⟨nnn, e⟩ => absurd e (hcall nnn), fun e => absurd e hret, fun _ _ => rfl,
      fun _ _ _ => rfl, fun _ => rfl⟩
  | call nnn hsp =>
    exact ⟨fun _ => rfl, nofun, fun hcall => absurd rfl (hcall nnn),
      fun k hk hne => Vector.getElem_set_ne hsp hk hne.symm, fun hcall => absurd rfl (hcall nnn)⟩
  | ret hsp =>
    exact ⟨nofun, fun _ => Nat.sub_add_cancel (Nat.pos_of_ne_zero hsp), fun _ hret => absurd rfl hret,
      fun _ _ _ => rfl, fun _ => rfl⟩
  | wait x =>
    exact ⟨nofun, nofun, fun _ _ => awaitCheck_sp x s, fun k _ _ => by simp only [awaitCheck_stack],
      fun _ => awaitCheck_stack x s⟩

/-! ### The registers written -/

/-- Loading a block of registers leaves those above it. -/
theorem reg_loadRegs_above (s : State) {r : Nibble} {bs : List Byte} (h : bs.length ≤ r.toNat) :
    (s.setRegs (loadRegs s.regs 0 bs)).reg r = s.reg r := by
  simp [State.reg, getElem_loadRegs, h]

theorem reg_awaitCheck_ne {x r : Nibble} (s : State) (h : r ≠ x) : (s.awaitCheck x).reg r = s.reg r := by
  by_cases hk : s.keys = 0#16
  · rw [awaitCheck_none x s hk]; rfl
  · rw [awaitCheck_some x s hk]; exact reg_setReg_ne s _ h

theorem reg_writeResultFlag_ne {x r : Nibble} (s : State) (a : Byte) (f : Bool) (hx : r ≠ x)
    (hf : r ≠ vf) :
    (s.writeResultFlag x a f).reg r = s.reg r := by
  rw [reg_writeResultFlag, if_neg hf, if_neg hx]

/-- Settles O46, by the number of registers an instruction writes: none, its destination, its destination and the
flag, or a block. -/
theorem registersWrittenAreThoseOfTheTable : Obligations.RegistersWrittenAreThoseOfTheTable := by
  unfold Obligations.RegistersWrittenAreThoseOfTheTable
  intro i s t r h hw
  cases i with
  | ldImm | addImm | ldReg | orReg | andReg | xorReg | rnd | ldVxDt =>
    cases h; exact reg_setReg_ne s _ (ne_of_beq_false hw)
  | addReg | subReg | shr | subnReg | shl =>
    obtain ⟨hx, hf⟩ := Bool.or_eq_false_iff.1 hw
    cases h
    exact reg_writeResultFlag_ne s _ _ (ne_of_beq_false hx) (ne_of_beq_false hf)
  | ldVxK x =>
    rw [exec_ldVxK] at h
    cases h
    exact reg_awaitCheck_ne s (ne_of_beq_false hw)
  | drw x y n =>
    rw [exec_drw] at h
    obtain ⟨-, rfl⟩ := ite_eq_next h
    exact reg_setReg_ne (s.setFb _) _ (ne_of_beq_false hw)
  | ldVxMem x =>
    rw [exec_ldVxMem] at h
    obtain ⟨-, rfl⟩ := ite_eq_next h
    exact reg_loadRegs_above s (by simpa [writesReg] using hw)
  | ret => rw [exec_ret] at h; split at h <;> cases h; rfl
  | call => rw [exec_call] at h; split at h <;> cases h; rfl
  | jpV0 => rw [exec_jpV0] at h; obtain ⟨-, rfl⟩ := ite_eq_next h; rfl
  | ldBVx => rw [exec_ldBVx] at h; obtain ⟨-, rfl⟩ := ite_eq_next h; rfl
  | ldMemVx => rw [exec_ldMemVx] at h; obtain ⟨-, rfl⟩ := ite_eq_next h; rfl
  | sys => cases h
  | _ => cases h; rfl

/-! ### The registers read -/

/-- Writes of two registers commute. -/
theorem setReg_comm (s : State) {x r : Nibble} (a v : Byte) (h : r ≠ x) :
    (s.setReg r v).setReg x a = (s.setReg x a).setReg r v := by
  have hne : r.toNat ≠ x.toNat := fun e => h (BitVec.eq_of_toNat_eq e)
  simp [State.setReg, State.setRegs, Vector.set_comm _ _ hne]

theorem setFb_setReg (s : State) (f : Framebuffer) (r : Nibble) (v : Byte) :
    (s.setReg r v).setFb f = (s.setFb f).setReg r v := rfl

theorem writeResultFlag_setReg (s : State) {x r : Nibble} (a v : Byte) (f : Bool) (hx : r ≠ x)
    (hf : r ≠ vf) :
    (s.setReg r v).writeResultFlag x a f = (s.writeResultFlag x a f).setReg r v := by
  rw [writeResultFlag_eq, writeResultFlag_eq, setReg_comm s a v hx, setReg_comm _ _ v hf]

/-- A register above a block is neither stored with it nor touched by loading it. -/
theorem regBlock_setReg_above (s : State) {x r : Nibble} (v : Byte) (h : x.toNat < r.toNat) :
    (s.setReg r v).regBlock x = s.regBlock x := by
  apply List.ext_getElem
  · simp
  · intro k hk _
    have hk : k < x.toNat + 1 := by simpa using hk
    have hne : r.toNat ≠ k := by omega
    simp [State.regBlock, hne]

theorem loadRegs_set_above (m : Regs) {k r : Nat} (v : Byte) (hr : r < 16) (bs : List Byte)
    (h : k + bs.length ≤ r) : loadRegs (m.set r v) k bs = (loadRegs m k bs).set r v := by
  apply Vector.ext
  intro j hj
  rw [getElem_loadRegs, Vector.getElem_set, Vector.getElem_set, getElem_loadRegs]
  by_cases hj' : r = j
  · subst hj'
    rw [if_pos rfl, if_pos rfl, if_pos (by omega), List.getD_eq_default _ _ (by omega)]
  · simp [hj']

theorem drawn_setReg (s : State) {x y r : Nibble} (n : Nibble) (v : Byte) (hx : r ≠ x) (hy : r ≠ y) :
    drawn x y n (s.setReg r v) = drawn x y n s := by
  unfold drawn
  rw [reg_setReg_ne s v hx.symm, reg_setReg_ne s v hy.symm]
  rfl

theorem awaitCheck_setReg (s : State) {x r : Nibble} (v : Byte) (h : r ≠ x) :
    (s.setReg r v).awaitCheck x = (s.awaitCheck x).setReg r v := by
  have hkeys : (s.setReg r v).keys = s.keys := rfl
  by_cases hk : s.keys = 0#16
  · rw [awaitCheck_none x s hk, awaitCheck_none x _ (hkeys.trans hk)]; rfl
  · rw [awaitCheck_some x s hk, awaitCheck_some x _ (hkeys ▸ hk), setReg_comm s _ v h]; rfl

theorem keyDown_setReg (s : State) {x r : Nibble} (v : Byte) (h : r ≠ x) :
    (s.setReg r v).keyDown x = s.keyDown x := by
  unfold State.keyDown
  rw [reg_setReg_ne s v h.symm]
  rfl

/-- Settles O47, by what an instruction reads: what it reads is the same after the write of another register, and
that write commutes with its own. -/
theorem registersReadAreThoseOfTheTable : Obligations.RegistersReadAreThoseOfTheTable := by
  unfold Obligations.RegistersReadAreThoseOfTheTable
  intro i s r v hr hw
  cases i with
  | ret =>
    rw [exec_ret, exec_ret, apply_dite (mapNext _)]
    rfl
  | call nnn =>
    rw [exec_call, exec_call, apply_dite (mapNext _)]
    rfl
  | seImm x | sneImm x | ldDtVx x | ldStVx x | addIVx x | ldFVx x =>
    have hx := reg_setReg_ne s v (ne_of_beq_false hr).symm
    simp only [exec, execSeImm, execSneImm, execLdDtVx, execLdStVx, execAddIVx, execLdFVx, hx]
    rfl
  | seReg x y | sneReg x y =>
    obtain ⟨hx, hy⟩ := Bool.or_eq_false_iff.1 hr
    simp only [exec, execSeReg, execSneReg, reg_setReg_ne s v (ne_of_beq_false hx).symm,
      reg_setReg_ne s v (ne_of_beq_false hy).symm]
    rfl
  | skp x | sknp x =>
    simp only [exec, execSkp, execSknp, keyDown_setReg s v (ne_of_beq_false hr)]
    rfl
  | ldImm x | rnd x | ldVxDt x =>
    exact congrArg (fun t => Host.Outcome.next t.advance) (setReg_comm s _ v (ne_of_beq_false hw))
  | addImm x =>
    simp only [exec, execAddImm, reg_setReg_ne s v (ne_of_beq_false hr).symm,
      setReg_comm s _ v (ne_of_beq_false hw)]
    rfl
  | ldReg x y =>
    simp only [exec, execLdReg, reg_setReg_ne s v (ne_of_beq_false hr).symm,
      setReg_comm s _ v (ne_of_beq_false hw)]
    rfl
  | orReg x y | andReg x y | xorReg x y =>
    obtain ⟨hx, hy⟩ := Bool.or_eq_false_iff.1 hr
    simp only [exec, execOrReg, execAndReg, execXorReg, reg_setReg_ne s v (ne_of_beq_false hx).symm,
      reg_setReg_ne s v (ne_of_beq_false hy).symm, setReg_comm s _ v (ne_of_beq_false hw)]
    rfl
  | addReg x y | subReg x y | subnReg x y =>
    obtain ⟨hx, hy⟩ := Bool.or_eq_false_iff.1 hr
    obtain ⟨hx', hf⟩ := Bool.or_eq_false_iff.1 hw
    simp only [exec, execAddReg, execSubReg, execSubnReg, reg_setReg_ne s v (ne_of_beq_false hx).symm,
      reg_setReg_ne s v (ne_of_beq_false hy).symm,
      writeResultFlag_setReg s _ v _ (ne_of_beq_false hx') (ne_of_beq_false hf)]
    rfl
  | shr x | shl x =>
    obtain ⟨hx', hf⟩ := Bool.or_eq_false_iff.1 hw
    simp only [exec, execShr, execShl, reg_setReg_ne s v (ne_of_beq_false hr).symm,
      writeResultFlag_setReg s _ v _ (ne_of_beq_false hx') (ne_of_beq_false hf)]
    rfl
  | jpV0 nnn =>
    rw [exec_jpV0, exec_jpV0, apply_ite (mapNext _), reg_setReg_ne s v (ne_of_beq_false hr).symm]
    rfl
  | drw x y n =>
    obtain ⟨hx, hy⟩ := Bool.or_eq_false_iff.1 hr
    rw [exec_drw, exec_drw, apply_ite (mapNext _),
      drawn_setReg s n v (ne_of_beq_false hx) (ne_of_beq_false hy), setFb_setReg,
      setReg_comm _ _ v (ne_of_beq_false hw)]
    rfl
  | ldVxK x =>
    rw [exec_ldVxK, exec_ldVxK, awaitCheck_setReg s v (ne_of_beq_false hw)]
    rfl
  | ldBVx x =>
    rw [exec_ldBVx, exec_ldBVx, apply_ite (mapNext _), reg_setReg_ne s v (ne_of_beq_false hr).symm]
    rfl
  | ldMemVx x =>
    rw [exec_ldMemVx, exec_ldMemVx, apply_ite (mapNext _),
      regBlock_setReg_above s v (by simpa [readsReg] using hr)]
    rfl
  | ldVxMem x =>
    rw [exec_ldVxMem, exec_ldVxMem, apply_ite (mapNext _), setReg_regs,
      loadRegs_set_above s.regs v r.isLt _ (by simpa [writesReg] using hw)]
    rfl
  | _ => rfl

/-! ### The caller's inputs -/

/-- `s` with another script of the caller's turns and another number of turns taken. -/
def setCaller (s : State) (ts : List Turn) (n : Nat) : State := { s with turns := ts, turnNo := n }

theorem awaitCheck_setCaller {s : State} {ts : List Turn} {n : Nat} (x : Nibble)
    (h : s.keys = (setCaller s ts n).keys) :
    (setCaller s ts n).awaitCheck x = setCaller (s.awaitCheck x) ts n := by
  by_cases hk : s.keys = 0#16
  · rw [awaitCheck_none x s hk, awaitCheck_none x _ (h ▸ hk)]; rfl
  · rw [awaitCheck_some x s hk, awaitCheck_some x _ (h ▸ hk), ← h]; rfl

theorem keyDown_setCaller {s : State} {ts : List Turn} {n : Nat} (x : Nibble)
    (h : s.keys = (setCaller s ts n).keys) : (setCaller s ts n).keyDown x = s.keyDown x := by
  unfold State.keyDown
  rw [← h]
  rfl

/-- With the inputs an instruction reads the same, the caller's turns have no effect on its outcome. -/
theorem exec_setCaller (i : Instr) (s : State) (ts : List Turn) (n : Nat)
    (hkeys : s.keys = (setCaller s ts n).keys ∨ ∀ x, i ≠ .skp x ∧ i ≠ .sknp x ∧ i ≠ .ldVxK x)
    (hrnd : s.rnd = (setCaller s ts n).rnd ∨ ∀ x kk, i ≠ .rnd x kk) :
    exec i (setCaller s ts n) = mapNext (fun t => setCaller t ts n) (exec i s) := by
  cases i with
  | skp x =>
    have hk := hkeys.resolve_right fun h => (h x).1 rfl
    simp only [exec, execSkp, keyDown_setCaller x hk]
    rfl
  | sknp x =>
    have hk := hkeys.resolve_right fun h => (h x).2.1 rfl
    simp only [exec, execSknp, keyDown_setCaller x hk]
    rfl
  | ldVxK x =>
    have hk := hkeys.resolve_right fun h => (h x).2.2 rfl
    rw [exec_ldVxK, exec_ldVxK, awaitCheck_setCaller x hk]
    rfl
  | rnd x kk =>
    have hr := hrnd.resolve_right fun h => h x kk rfl
    simp only [exec, execRnd, ← hr]
    rfl
  | ret => rw [exec_ret, exec_ret, apply_dite (mapNext _)]; rfl
  | call => rw [exec_call, exec_call, apply_dite (mapNext _)]; rfl
  | jpV0 => rw [exec_jpV0, exec_jpV0, apply_ite (mapNext _)]; rfl
  | drw => rw [exec_drw, exec_drw, apply_ite (mapNext _)]; rfl
  | ldBVx => rw [exec_ldBVx, exec_ldBVx, apply_ite (mapNext _)]; rfl
  | ldMemVx => rw [exec_ldMemVx, exec_ldMemVx, apply_ite (mapNext _)]; rfl
  | ldVxMem => rw [exec_ldVxMem, exec_ldVxMem, apply_ite (mapNext _)]; rfl
  | _ => rfl

/-- Settles O49. -/
theorem inputsAreReadByFourInstructions : Obligations.InputsAreReadByFourInstructions :=
  exec_setCaller

end Sys2Proof.Proofs
end

section
/-! The outputs (10_state R36) and the values after reset (R39). -/

namespace Sys2Proof.Proofs

open Sys2Proof.Machine Sys2Proof.Safety

/-! ### The outputs -/

/-- Bit `64 * r + c` of the rows as one number is bit `c` of row `r`. -/
theorem testBit_rowsToNat (rs : List (BitVec 64)) (r c : Nat) (hr : r < rs.length) (hc : c < 64) :
    (rowsToNat rs).testBit (64 * r + c) = rs[r].getLsbD c := by
  induction rs generalizing r with
  | nil => simp at hr
  | cons row rs ih =>
    rw [rowsToNat, Nat.add_comm, Nat.testBit_two_pow_mul_add _ row.isLt]
    cases r with
    | zero => simp [hc, BitVec.getLsbD]
    | succ r =>
      have hk : 64 * (r + 1) + c - 64 = 64 * r + c := by omega
      rw [if_neg (by omega), hk, ih r (by simpa using hr)]
      rfl

theorem fbOut_bit (s : State) (r c : Nat) (hr : r < 32) (hc : c < 64) :
    s.fbOut.getLsbD (64 * r + c) = Framebuffer.pixel s.fb r c := by
  have hbit : 64 * r + c < 2048 := by omega
  rw [State.fbOut, BitVec.getLsbD_ofNat, testBit_rowsToNat _ r c (by simpa using hr) hc]
  simp [Framebuffer.pixel, hbit, Nat.mod_eq_of_lt hr, Nat.mod_eq_of_lt hc]

theorem stepResult_running {t : State} (h : t.mode = .running) : stepResult (.next t) = some .ok := by
  simp [stepResult, State.awaitingKey, h]

theorem stepResult_waiting {t : State} (h : t.mode ≠ .running) :
    stepResult (.next t) = some .awaiting := by
  simp [stepResult, State.awaitingKey, h]

/-! ### The faults of a step -/

/-- A block out of range has a byte, and its last address is above 4095 (20_memory R67). -/
theorem last_of_not_inRange {a n : Nat} (h : ¬inRange a n = true) : 1 ≤ n ∧ 4095 < a + n - 1 := by
  rw [inRange_iff] at h
  omega

/-- A fault of an instruction has the cause the spec gives (60_exceptions R250, 20_memory R67). -/
theorem exec_fault_cause {i : Instr} {s : State} {f : Fault} (h : exec i s = .fault f) :
    FaultCause i s f := by
  cases i with
  | sys => cases h; exact rfl
  | ret =>
    rw [exec_ret] at h
    split at h
    · cases h; exact ⟨rfl, ‹_›⟩
    · cases h
  | call =>
    rw [exec_call] at h
    split at h
    · cases h
    · cases h; exact ⟨rfl, by omega⟩
  | jpV0 =>
    rw [exec_jpV0] at h
    obtain ⟨hr, rfl⟩ := ite_eq_fault h
    exact ⟨rfl, (last_of_not_inRange hr).2⟩
  | drw =>
    rw [exec_drw] at h
    obtain ⟨hr, rfl⟩ := ite_eq_fault h
    exact ⟨rfl, last_of_not_inRange hr⟩
  | ldBVx =>
    rw [exec_ldBVx] at h
    obtain ⟨hr, rfl⟩ := ite_eq_fault h
    exact ⟨rfl, (last_of_not_inRange hr).2⟩
  | ldMemVx =>
    rw [exec_ldMemVx] at h
    obtain ⟨hr, rfl⟩ := ite_eq_fault h
    exact ⟨rfl, (last_of_not_inRange hr).2⟩
  | ldVxMem =>
    rw [exec_ldVxMem] at h
    obtain ⟨hr, rfl⟩ := ite_eq_fault h
    exact ⟨rfl, (last_of_not_inRange hr).2⟩
  | ldVxK => rw [exec_ldVxK] at h; cases h
  | _ => cases h

theorem not_faultCause_programTooLarge (i : Instr) (s : State) : ¬FaultCause i s .programTooLarge := by
  cases i <;> simp [FaultCause]

theorem fetch_ne_fail_programTooLarge (s : State) : s.fetch ≠ .fail .programTooLarge := by
  rw [fetch_eq]
  split
  · split <;> simp
  · simp

theorem stepEvent_ne_programTooLarge (s : State) : stepEvent s ≠ .fault .programTooLarge := by
  intro h
  unfold stepEvent at h
  cases hmode : s.mode with
  | awaitingKey r => rw [activity_awaitingKey hmode] at h; cases h
  | running =>
    rw [activity_running hmode] at h
    cases hf : s.fetch with
    | wait r => exact fetch_ne_wait s r hf
    | run i => rw [hf] at h; exact not_faultCause_programTooLarge i s (exec_fault_cause h)
    | fail f => rw [hf] at h; cases h; exact fetch_ne_fail_programTooLarge s hf

/-- Settles O22. -/
theorem outputsShowTheState : Obligations.OutputsShowTheState := by
  unfold Obligations.OutputsShowTheState
  refine ⟨fbOut_bit, fun s => by simp [State.soundOn, State.awaitingKey], fun s =>
    ⟨fun t ht => ?_, fun f hf => ?_⟩⟩
  · rw [ht]
    exact ⟨stepResult_running, stepResult_waiting⟩
  · refine ⟨by rw [hf]; rfl, ?_⟩
    rintro rfl
    exact stepEvent_ne_programTooLarge s hf

/-! ### Reset -/

/-- Settles O17. -/
theorem resetValuesOfAllState : Obligations.ResetValuesOfAllState := by
  refine ⟨fun x => ?_, rfl, rfl, rfl, fun k hk => ?_, rfl, rfl, read_nil, pixel_clear, rfl, rfl, rfl, rfl⟩
  · simp [State.reg, State.reset]
  · simp [State.reset]

end Sys2Proof.Proofs
end

section
/-! The host's writes (10_state R37, 70_reset_and_hazards R295): what one write changes, and that a list of writes
reaches every launch state. -/

namespace Sys2Proof.Proofs

open Sys2Proof.Machine Sys2Proof.Safety

/-! ### One lemma per field write: what it leaves unchanged -/

theorem frame_setMem (s : State) (m : Memory) : Frame [.mem] s (s.setMem m) := by
  intro p hp; cases p <;> simp_all [Same]

theorem frame_setRegs (s : State) (r : Regs) : Frame [] s (s.setRegs r) := by
  intro p hp; cases p <;> simp_all [Same]

theorem frame_setI (s : State) (w : Word) : Frame [.i] s (s.setI w) := by
  intro p hp; cases p <;> simp_all [Same]

theorem frame_setPc (s : State) (w : Word) : Frame [.pc] s (s.setPc w) := by
  intro p hp; cases p <;> simp_all [Same]

theorem frame_setSp (s : State) (n : Fin 17) : Frame [.sp] s (s.setSp n) := by
  intro p hp; cases p <;> simp_all [Same]

theorem frame_setStack (s : State) (k : Vector Word 16) : Frame [.stack] s (s.setStack k) := by
  intro p hp; cases p <;> simp_all [Same]

theorem frame_setDt (s : State) (v : Byte) : Frame [.dt] s (s.setDt v) := by
  intro p hp; cases p <;> simp_all [Same]

theorem frame_setSt (s : State) (v : Byte) : Frame [.st] s (s.setSt v) := by
  intro p hp; cases p <;> simp_all [Same]

theorem frame_setMode (s : State) (m : Mode) : Frame [.mode] s (s.setMode m) := by
  intro p hp; cases p <;> simp_all [Same]

theorem regsFrame_setReg (s : State) (x : Nibble) (v : Byte) : RegsFrame [x] s (s.setReg x v) :=
  fun _ hr => reg_setReg_ne s v (List.ne_of_not_mem_cons hr)

/-- Settles O19: each host write is one field write of the state. -/
theorem hostWritesSetOneByteOrRegister : Obligations.HostWritesSetOneByteOrRegister := by
  unfold Obligations.HostWritesSetOneByteOrRegister
  intro s
  refine ⟨fun a v ha => ?byte, fun a v ha => hostWrite_byte_fault s a v ha, fun x v => ?reg,
    fun w => ?i, fun w => ?pc, fun n => ?sp, fun k w => ?slot, fun v => ?dt, fun v => ?st,
    fun m => ?mode⟩
  case byte =>
    exact ⟨_, hostWrite_byte_ok s a v ha, fun b => read_write s.mem a b v, fun _ _ => rfl,
      frame_setMem s _⟩
  case reg => exact ⟨_, rfl, reg_setReg_self s x v, regsFrame_setReg s x v, frame_setRegs s _⟩
  case i => exact ⟨_, rfl, rfl, fun _ _ => rfl, frame_setI s w⟩
  case pc => exact ⟨_, rfl, rfl, fun _ _ => rfl, frame_setPc s w⟩
  case sp => exact ⟨_, rfl, rfl, fun _ _ => rfl, frame_setSp s n⟩
  case slot =>
    refine ⟨_, rfl, fun j hj => ?_, fun _ _ => rfl, frame_setStack s _⟩
    simp only [setStack_stack, Vector.getElem_set, eq_comm]
  case dt => exact ⟨_, rfl, rfl, fun _ _ => rfl, frame_setDt s v⟩
  case st => exact ⟨_, rfl, rfl, fun _ _ => rfl, frame_setSt s v⟩
  case mode => exact ⟨_, rfl, rfl, fun _ _ => rfl, frame_setMode s m⟩

/-! ### Lists of writes -/

/-- A numbered run of writes: what holds of the start and is carried on by each write holds at the end. -/
theorem hostWrites_range {P : Nat → State → Prop} {w : Nat → HostWrite} {s : State} (n : Nat)
    (h0 : P 0 s) (hstep : ∀ k u, k < n → P k u → ∃ v, u.hostWrite (w k) = .next v ∧ P (k + 1) v) :
    ∃ u, s.hostWrites ((List.range n).map w) = .next u ∧ P n u := by
  induction n with
  | zero => exact ⟨s, rfl, h0⟩
  | succ n ih =>
    obtain ⟨u, hu, hPu⟩ := ih fun k u hk => hstep k u (by omega)
    obtain ⟨v, hv, hPv⟩ := hstep n u (by omega) hPu
    refine ⟨v, ?_, hPv⟩
    rw [List.range_succ, List.map_append, hostWrites_append _ hu]
    exact hostWrites_cons [] hv

/-! ### The bytes -/

/-- The write that puts byte `a` of a memory in place. -/
def byteWrite (m : Memory) (a : Nat) : HostWrite := .byte a (Memory.read m a)

/-- `u` is `s` with the bytes of `m` below `n`. -/
def BytesPlaced (m : Memory) (s : State) (n : Nat) (u : State) : Prop :=
  ∃ m', u = s.setMem m' ∧ ∀ a, Memory.read m' a = if a < n then Memory.read m a else Memory.read s.mem a

theorem bytesPlaced_step {m : Memory} {s u : State} {k : Nat} (hk : k < Config.memSize)
    (h : BytesPlaced m s k u) : ∃ v, u.hostWrite (byteWrite m k) = .next v ∧ BytesPlaced m s (k + 1) v := by
  obtain ⟨m', rfl, hm'⟩ := h
  refine ⟨_, hostWrite_byte_ok _ _ _ (Nat.le_of_lt_succ hk), _, rfl, fun a => ?_⟩
  rw [setMem_mem, read_write, hm']
  by_cases ha : a = k
  · simp [ha]
  · simp [ha, show a < k + 1 ↔ a < k by omega]

/-! ### The registers -/

/-- The write that puts register `k` of a register file in place. -/
def regWrite (r : Regs) (k : Nat) : HostWrite :=
  .reg (BitVec.ofNat 4 k) (r[k % 16]'(Nat.mod_lt k (by decide)))

/-- `u` is `s` with the registers of `r` below `n`. -/
def RegsPlaced (r : Regs) (s : State) (n : Nat) (u : State) : Prop :=
  ∃ r', u = s.setRegs r' ∧ ∀ (j : Nat) (hj : j < 16), j < n → r'[j] = r[j]

theorem regsPlaced_step {r : Regs} {s u : State} {k : Nat} (hk : k < 16) (h : RegsPlaced r s k u) :
    ∃ v, u.hostWrite (regWrite r k) = .next v ∧ RegsPlaced r s (k + 1) v := by
  obtain ⟨r', rfl, hr'⟩ := h
  refine ⟨_, rfl, _, rfl, fun j hj hjk => ?_⟩
  have hmod : (BitVec.ofNat 4 k).toNat = k := by simp; omega
  simp only [Vector.getElem_set, setRegs_regs, hmod]
  split
  case isTrue hkj => subst hkj; simp only [Nat.mod_eq_of_lt hk]
  case isFalse hkj => exact hr' j hj (by omega)

theorem RegsPlaced.all {r : Regs} {s u : State} (h : RegsPlaced r s 16 u) : u = s.setRegs r := by
  obtain ⟨r', rfl, hr'⟩ := h
  rw [Vector.ext fun j hj => hr' j hj hj]

/-! ### The stack slots -/

/-- The write that puts slot `k` of a stack in place. -/
def slotWrite (v : Vector Word 16) (k : Nat) : HostWrite :=
  .slot (Fin.ofNat 16 k) (v[k % 16]'(Nat.mod_lt k (by decide)))

/-- `u` is `s` with the slots of `v` below `n`. -/
def SlotsPlaced (v : Vector Word 16) (s : State) (n : Nat) (u : State) : Prop :=
  ∃ v', u = s.setStack v' ∧ ∀ (j : Nat) (hj : j < 16), j < n → v'[j] = v[j]

theorem slotsPlaced_step {v : Vector Word 16} {s u : State} {k : Nat} (hk : k < 16)
    (h : SlotsPlaced v s k u) :
    ∃ w, u.hostWrite (slotWrite v k) = .next w ∧ SlotsPlaced v s (k + 1) w := by
  obtain ⟨v', rfl, hv'⟩ := h
  refine ⟨_, rfl, _, rfl, fun j hj hjk => ?_⟩
  have hmod : (Fin.ofNat 16 k).val = k := Nat.mod_eq_of_lt hk
  simp only [Vector.getElem_set, setStack_stack, hmod]
  split
  case isTrue hkj => subst hkj; simp only [Nat.mod_eq_of_lt hk]
  case isFalse hkj => exact hv' j hj (by omega)

theorem SlotsPlaced.all {v : Vector Word 16} {s u : State} (h : SlotsPlaced v s 16 u) :
    u = s.setStack v := by
  obtain ⟨v', rfl, hv'⟩ := h
  rw [Vector.ext fun j hj => hv' j hj hj]

/-! ### Every launch state -/

/-- The writes that put the memory, the registers and the stack of `t` in place. -/
def launchWrites (t : State) : List HostWrite :=
  (List.range Config.memSize).map (byteWrite t.mem) ++ ((List.range 16).map (regWrite t.regs) ++
    ((List.range 16).map (slotWrite t.stack) ++
      [.i t.i, .pc t.pc, .sp t.sp, .dt t.dt, .st t.st, .mode t.mode]))

/-- The launch writes of `t` lead from `s` to `t` but for the framebuffer and the caller's turns. -/
theorem hostWrites_launchWrites (s t : State) :
    ∃ m, s.hostWrites (launchWrites t) =
        .next { t with mem := m, fb := s.fb, turns := s.turns, turnNo := s.turnNo } ∧
      ∀ a, Memory.read m a = if a < Config.memSize then Memory.read t.mem a else Memory.read s.mem a := by
  obtain ⟨_, hbytes, m, rfl, hm⟩ := hostWrites_range (P := BytesPlaced t.mem s) Config.memSize
    (s := s) ⟨s.mem, rfl, by simp⟩ fun _ _ => bytesPlaced_step
  obtain ⟨_, hregs, placed⟩ := hostWrites_range (P := RegsPlaced t.regs (s.setMem m)) 16
    (s := s.setMem m) ⟨s.regs, rfl, by simp⟩ fun _ _ => regsPlaced_step
  obtain rfl := placed.all
  obtain ⟨_, hslots, placed⟩ := hostWrites_range
    (P := SlotsPlaced t.stack ((s.setMem m).setRegs t.regs)) 16
    (s := (s.setMem m).setRegs t.regs) ⟨s.stack, rfl, by simp⟩ fun _ _ => slotsPlaced_step
  obtain rfl := placed.all
  refine ⟨m, ?_, hm⟩
  rw [launchWrites, hostWrites_append _ hbytes, hostWrites_append _ hregs, hostWrites_append _ hslots]
  rfl

/-- Settles O20: the writes of `t`'s own content. -/
theorem hostWritesReachEveryLaunchState : Obligations.HostWritesReachEveryLaunchState := by
  unfold Obligations.HostWritesReachEveryLaunchState
  intro s t hhigh
  obtain ⟨m, hw, hm⟩ := hostWrites_launchWrites s t
  have hread : ∀ a, Memory.read m a = Memory.read t.mem a := fun a => by
    rw [hm]
    split
    · rfl
    case isFalse ha => exact (hhigh a (Nat.lt_of_succ_le (Nat.not_lt.1 ha))).symm
  refine ⟨_, _, hw, fun _ _ => rfl, fun p hp => ?_, fun p hp => ?_⟩
  · cases p <;> simp_all [Same]
  · cases p <;> simp_all [Same]

end Sys2Proof.Proofs
end

section
/-! The storage spaces (spec 20_memory): what the next fetch finds after a store (R71), and that memory, framebuffer
and stack are each reached only by the instructions named for them (R60, R73, R75). -/

namespace Sys2Proof.Proofs

open Sys2Proof.Machine Sys2Proof.Safety

/-! ### The fetch after a store -/

/-- A fetch finds the word of the two bytes that memory reads as at its address. -/
theorem fetchesWord_of_read {t : State} {w : Word} {byteAt : Nat → Byte} (hw : w.toNat ≤ 4094)
    (h : ∀ a, Memory.read t.mem a = byteAt a) : FetchesWord t w byteAt := by
  have hfetch : (t.setPc w).fetch = wordActivity (byteAt w.toNat ++ byteAt (w.toNat + 1)) := by
    rw [fetch_eq, setPc_pc, if_pos hw, setPc_mem, h, h]
    rfl
  exact ⟨hfetch, fun hmode => (activity_running (s := t.setPc w) hmode).trans hfetch⟩

/-- Memory after `V[0]` to `V[x]` are stored from `I` up (43_index_memory R194). -/
theorem read_writeBytes_regBlock (s : State) (x : Nibble) (a : Nat) :
    Memory.read (Memory.writeBytes s.mem s.i.toNat (s.regBlock x)) a = blockByte s x a := by
  have hlen := length_regBlock s x
  unfold blockByte
  split
  case isTrue h =>
    obtain ⟨k, rfl⟩ := Nat.exists_eq_add_of_le h.1
    have hk : (BitVec.ofNat 4 k).toNat = k := Nat.mod_eq_of_lt (by omega)
    rw [Nat.add_sub_cancel_left, read_writeBytes_inside _ _ _ _ (by omega),
      ← getElem_regBlock s x _ (by omega)]
    simp only [hk]
  case isFalse h => exact read_writeBytes_outside _ _ _ _ (by omega)

/-- Memory after the digits of `V[x]` are stored from `I` up (43_index_memory R193). -/
theorem read_writeBytes_decimalDigits (s : State) (x : Nibble) (a : Nat) :
    Memory.read (Memory.writeBytes s.mem s.i.toNat (decimalDigits (s.reg x))) a = digitByte s x a := by
  unfold digitByte
  split_ifs with h0 h1 h2
  · rw [h0]; exact read_writeBytes_inside s.mem s.i.toNat 0 _ (by simp)
  · rw [h1]; exact read_writeBytes_inside s.mem s.i.toNat 1 _ (by simp)
  · rw [h2]; exact read_writeBytes_inside s.mem s.i.toNat 2 _ (by simp)
  · exact read_writeBytes_outside _ _ _ _ (by rw [length_decimalDigits]; omega)

/-- Settles O40: memory after each store reads as the statement's bytes, and the fetch reads memory. -/
theorem storedBytesAreFetchedAtOnce : Obligations.StoredBytesAreFetchedAtOnce := by
  unfold Obligations.StoredBytesAreFetchedAtOnce
  intro s t x w hw
  refine ⟨fun h => ?_, fun h => ?_⟩
  · rw [exec_ldMemVx] at h
    obtain ⟨-, rfl⟩ := ite_eq_next h
    exact fetchesWord_of_read hw (read_writeBytes_regBlock s x)
  · rw [exec_ldBVx] at h
    obtain ⟨-, rfl⟩ := ite_eq_next h
    exact fetchesWord_of_read hw (read_writeBytes_decimalDigits s x)

/-! ### The key wait reaches none of the spaces -/

theorem awaitCheck_setMem (x : Nibble) (s : State) (m : Memory) :
    (s.setMem m).awaitCheck x = (s.awaitCheck x).setMem m := by
  rw [State.awaitCheck, State.awaitCheck, apply_ite (fun t : State => t.setMem m)]
  rfl

theorem awaitCheck_setFb (x : Nibble) (s : State) (f : Framebuffer) :
    (s.setFb f).awaitCheck x = (s.awaitCheck x).setFb f := by
  rw [State.awaitCheck, State.awaitCheck, apply_ite (fun t : State => t.setFb f)]
  rfl

/-- `s` with another stack pointer and other stack slots. -/
def setStackSpace (s : State) (p : Fin 17) (k : Vector Word 16) : State := { s with sp := p, stack := k }

theorem awaitCheck_setStackSpace (x : Nibble) (s : State) (p : Fin 17) (k : Vector Word 16) :
    (setStackSpace s p k).awaitCheck x = setStackSpace (s.awaitCheck x) p k := by
  rw [State.awaitCheck, State.awaitCheck, apply_ite (fun t : State => setStackSpace t p k)]
  rfl

/-! ### One space at a time -/

/-- Memory is reached by DRW, LD B, LD [I] and LD Vx,[I] alone (R60). -/
theorem exec_setMem {i : Instr} (s : State) (m : Memory) (hdrw : ∀ x y n, i ≠ .drw x y n)
    (hblock : ∀ x, i ≠ .ldBVx x ∧ i ≠ .ldMemVx x ∧ i ≠ .ldVxMem x) :
    exec i (s.setMem m) = mapNext (fun t => t.setMem m) (exec i s) := by
  cases i with
  | drw x y n => exact absurd rfl (hdrw x y n)
  | ldBVx x => exact absurd rfl (hblock x).1
  | ldMemVx x => exact absurd rfl (hblock x).2.1
  | ldVxMem x => exact absurd rfl (hblock x).2.2
  | ret => rw [exec_ret, exec_ret, apply_dite (mapNext _)]; rfl
  | call => rw [exec_call, exec_call, apply_dite (mapNext _)]; rfl
  | jpV0 => rw [exec_jpV0, exec_jpV0, apply_ite (mapNext _)]; rfl
  | ldVxK => rw [exec_ldVxK, exec_ldVxK, awaitCheck_setMem]; rfl
  | _ => rfl

/-- The framebuffer is reached by CLS and DRW alone (R73). -/
theorem exec_setFb {i : Instr} (s : State) (f : Framebuffer) (hcls : i ≠ .cls)
    (hdrw : ∀ x y n, i ≠ .drw x y n) :
    exec i (s.setFb f) = mapNext (fun t => t.setFb f) (exec i s) := by
  cases i with
  | cls => exact absurd rfl hcls
  | drw x y n => exact absurd rfl (hdrw x y n)
  | ret => rw [exec_ret, exec_ret, apply_dite (mapNext _)]; rfl
  | call => rw [exec_call, exec_call, apply_dite (mapNext _)]; rfl
  | jpV0 => rw [exec_jpV0, exec_jpV0, apply_ite (mapNext _)]; rfl
  | ldBVx => rw [exec_ldBVx, exec_ldBVx, apply_ite (mapNext _)]; rfl
  | ldMemVx => rw [exec_ldMemVx, exec_ldMemVx, apply_ite (mapNext _)]; rfl
  | ldVxMem => rw [exec_ldVxMem, exec_ldVxMem, apply_ite (mapNext _)]; rfl
  | ldVxK => rw [exec_ldVxK, exec_ldVxK, awaitCheck_setFb]; rfl
  | _ => rfl

/-- The stack is reached by CALL and RET alone (R75). -/
theorem exec_setStackSpace {i : Instr} (s : State) (p : Fin 17) (k : Vector Word 16) (hret : i ≠ .ret)
    (hcall : ∀ nnn, i ≠ .call nnn) :
    exec i (setStackSpace s p k) = mapNext (fun t => setStackSpace t p k) (exec i s) := by
  cases i with
  | ret => exact absurd rfl hret
  | call nnn => exact absurd rfl (hcall nnn)
  | drw => rw [exec_drw, exec_drw, apply_ite (mapNext _)]; rfl
  | jpV0 => rw [exec_jpV0, exec_jpV0, apply_ite (mapNext _)]; rfl
  | ldBVx => rw [exec_ldBVx, exec_ldBVx, apply_ite (mapNext _)]; rfl
  | ldMemVx => rw [exec_ldMemVx, exec_ldMemVx, apply_ite (mapNext _)]; rfl
  | ldVxMem => rw [exec_ldVxMem, exec_ldVxMem, apply_ite (mapNext _)]; rfl
  | ldVxK => rw [exec_ldVxK, exec_ldVxK, awaitCheck_setStackSpace]; rfl
  | _ => rfl

/-- Settles O48, one space at a time. -/
theorem storageSpacesAreSeparate : Obligations.StorageSpacesAreSeparate := by
  unfold Obligations.StorageSpacesAreSeparate
  intro i s
  exact ⟨fun hdrw hblock m => exec_setMem s m hdrw hblock,
    fun hcls hdrw f => exec_setFb s f hcls hdrw,
    fun hret hcall p k => exec_setStackSpace s p k hret hcall⟩

end Sys2Proof.Proofs
end

section
/-! Decoding and encoding undo each other, and both follow the opcode map (spec 30_encoding R91, R94, R95, R96). -/

namespace Sys2Proof.Proofs

/-! ### A family's decoder on a word of its format -/

theorem decodeWord_family0 (nnn : Addr12) :
    decodeWord (wordNNN 0x0#4 nnn) = .instr (decodeFamily0 (wordNNN 0x0#4 nnn)) := by
  rw [decodeWord, fieldT_wordNNN]; rfl

theorem decodeWord_family8 (x y n : Nibble) :
    decodeWord (wordXYN 0x8#4 x y n) = decodeFamily8 x y n := by
  simp [decodeWord]

theorem decodeWord_familyE (x : Nibble) (kk : Byte) :
    decodeWord (wordXKK 0xE#4 x kk) = decodeFamilyE x kk := by
  simp [decodeWord]

theorem decodeWord_familyF (x : Nibble) (kk : Byte) :
    decodeWord (wordXKK 0xF#4 x kk) = decodeFamilyF x kk := by
  simp [decodeWord]

theorem wordNNN_inj {t : Nibble} {a b : Addr12} (h : wordNNN t a = wordNNN t b) : a = b := by
  simpa using congrArg fieldNNN h

/-- A well-formed SYS is neither of the two words that family 0 gives to CLS and RET (40_control_flow R122). -/
theorem decodeFamily0_of_wf_sys {nnn : Addr12} (h : (Instr.sys nnn).wf = true) :
    decodeFamily0 (wordNNN 0x0#4 nnn) = .sys nnn := by
  simp only [Instr.wf, Bool.and_eq_true, bne_iff_ne] at h
  obtain ⟨hcls, hret⟩ := h
  have hcls' : wordNNN 0x0#4 nnn ≠ 0x00E0#16 := fun he => hcls (wordNNN_inj (t := 0x0#4) he)
  have hret' : wordNNN 0x0#4 nnn ≠ 0x00EE#16 := fun he => hret (wordNNN_inj (t := 0x0#4) he)
  rw [decodeFamily0, if_neg hcls', if_neg hret', fieldNNN_wordNNN]

/-- Settles O3: the top nibble selects the family, and within families 0, 8, E and F the rest of the row does. -/
theorem decodeOfEncodeIsTheInstruction : Obligations.DecodeOfEncodeIsTheInstruction := by
  unfold Obligations.DecodeOfEncodeIsTheInstruction
  intro i hi
  cases i with
  | cls | ret => rfl
  | sys nnn => exact (decodeWord_family0 nnn).trans (congrArg _ (decodeFamily0_of_wf_sys hi))
  | ldReg | orReg | andReg | xorReg | addReg | subReg | shr | subnReg | shl =>
    exact decodeWord_family8 _ _ _
  | skp | sknp => exact decodeWord_familyE _ _
  | ldVxDt | ldVxK | ldDtVx | ldStVx | addIVx | ldFVx | ldBVx | ldMemVx | ldVxMem =>
    exact decodeWord_familyF _ _
  | _ => simp [encode, decodeWord]

/-! ### A word is put together again from its family and its fields -/

theorem wordNNN_of_fieldT {w : Word} {t : Nibble} (h : (fieldT w).toNat = t.toNat) :
    wordNNN t (fieldNNN w) = w := by
  rw [← BitVec.eq_of_toNat_eq h, wordNNN_fields]

theorem wordXKK_of_fieldT {w : Word} {t : Nibble} (h : (fieldT w).toNat = t.toNat) :
    wordXKK t (fieldX w) (fieldKK w) = w := by
  rw [← BitVec.eq_of_toNat_eq h, wordXKK_fields]

theorem wordXYN_of_fieldT {w : Word} {t : Nibble} (h : (fieldT w).toNat = t.toNat) :
    wordXYN t (fieldX w) (fieldY w) (fieldN w) = w := by
  rw [← BitVec.eq_of_toNat_eq h, wordXYN_fields]

/-! ### What a family's decoder answers encodes to the word it was given -/

theorem encode_decodeFamily0 {w : Word} (h : (fieldT w).toNat = 0) :
    encode (decodeFamily0 w) = w ∧ (decodeFamily0 w).wf = true := by
  have hw : wordNNN 0x0#4 (fieldNNN w) = w := wordNNN_of_fieldT h
  unfold decodeFamily0
  split
  · exact ⟨Eq.symm ‹_›, rfl⟩
  split
  · exact ⟨Eq.symm ‹_›, rfl⟩
  next hcls hret =>
    refine ⟨hw, ?_⟩
    simp only [Instr.wf, Bool.and_eq_true, bne_iff_ne]
    refine ⟨fun he => hcls ?_, fun he => hret ?_⟩ <;> (rw [← hw, he]; rfl)

theorem encode_decodeFamily8 {x y n : Nibble} {i : Instr} (h : decodeFamily8 x y n = .instr i) :
    encode i = wordXYN 0x8#4 x y n ∧ i.wf = true := by
  unfold decodeFamily8 at h
  split at h <;> cases h <;>
    exact ⟨congrArg (wordXYN 0x8#4 x y) (BitVec.eq_of_toNat_eq (Eq.symm ‹_›)), rfl⟩

theorem encode_decodeFamilyE {x : Nibble} {kk : Byte} {i : Instr}
    (h : decodeFamilyE x kk = .instr i) : encode i = wordXKK 0xE#4 x kk ∧ i.wf = true := by
  unfold decodeFamilyE at h
  split_ifs at h with hkk hkk <;> cases h <;> exact ⟨congrArg (wordXKK 0xE#4 x) hkk.symm, rfl⟩

theorem encode_decodeFamilyF {x : Nibble} {kk : Byte} {i : Instr}
    (h : decodeFamilyF x kk = .instr i) : encode i = wordXKK 0xF#4 x kk ∧ i.wf = true := by
  unfold decodeFamilyF at h
  split_ifs at h with hkk hkk hkk hkk hkk hkk hkk hkk hkk <;> cases h <;>
    exact ⟨congrArg (wordXKK 0xF#4 x) hkk.symm, rfl⟩

/-- Settles O4, one top nibble at a time. -/
theorem encodeOfDecodeIsTheWord : Obligations.EncodeOfDecodeIsTheWord := by
  unfold Obligations.EncodeOfDecodeIsTheWord
  intro w i h
  unfold decodeWord at h
  split at h
  next ht => cases h; exact encode_decodeFamily0 ht
  next ht => cases h; exact ⟨wordNNN_of_fieldT ht, rfl⟩
  next ht => cases h; exact ⟨wordNNN_of_fieldT ht, rfl⟩
  next ht => cases h; exact ⟨wordXKK_of_fieldT ht, rfl⟩
  next ht => cases h; exact ⟨wordXKK_of_fieldT ht, rfl⟩
  next ht => cases h; exact ⟨wordXYN_of_fieldT ht, rfl⟩
  next ht => cases h; exact ⟨wordXKK_of_fieldT ht, rfl⟩
  next ht => cases h; exact ⟨wordXKK_of_fieldT ht, rfl⟩
  next ht => exact wordXYN_of_fieldT (t := 0x8#4) ht ▸ encode_decodeFamily8 h
  next ht => cases h; exact ⟨wordXYN_of_fieldT ht, rfl⟩
  next ht => cases h; exact ⟨wordNNN_of_fieldT ht, rfl⟩
  next ht => cases h; exact ⟨wordNNN_of_fieldT ht, rfl⟩
  next ht => cases h; exact ⟨wordXKK_of_fieldT ht, rfl⟩
  next ht => cases h; exact ⟨wordXYN_of_fieldT ht, rfl⟩
  next ht => exact wordXKK_of_fieldT (t := 0xE#4) ht ▸ encode_decodeFamilyE h
  next =>
    -- the one top nibble left
    have ht : (fieldT w).toNat = 0xF := by
      have hlt := (fieldT w).isLt
      simp only [imp_false] at *
      omega
    exact wordXKK_of_fieldT (t := 0xF#4) ht ▸ encode_decodeFamilyF h

end Sys2Proof.Proofs
end

section
/-! Decoding follows the opcode map (spec 30_encoding R95), the fields of a word as numbers (R91), and that no
instruction is refused (R94, R120). -/

namespace Sys2Proof.Proofs

open Sys2Proof.Machine

/-! ### The word of an instruction matches its row -/

theorem matchesWord_iff (r : OpcodeRow) (w : Word) :
    r.matchesWord w = true ↔ w &&& r.mask = r.pattern := beq_iff_eq

open Sys2Proof.Laws.EncodesItsRow in
theorem row_matchesWord_encode (i : Instr) : i.row.matchesWord (encode i) = true := by
  rw [matchesWord_iff]
  cases i
  exacts [cls, ret, sys _, jp _, call _, seImm _ _, sneImm _ _, seReg _ _ _, ldImm _ _, addImm _ _,
    ldReg _ _, orReg _ _, andReg _ _, xorReg _ _, addReg _ _, subReg _ _, shr _ _, subnReg _ _, shl _ _,
    sneReg _ _ _, ldI _, jpV0 _, rnd _ _, drw _ _ _, skp _, sknp _, ldVxDt _, ldVxK _, ldDtVx _,
    ldStVx _, addIVx _, ldFVx _, ldBVx _, ldMemVx _, ldVxMem _]

/-! ### The fields that a mask of the map selects -/

theorem fieldT_and (v w : Word) : fieldT (v &&& w) = fieldT v &&& fieldT w := BitVec.extractLsb'_and

theorem fieldN_and (v w : Word) : fieldN (v &&& w) = fieldN v &&& fieldN w := BitVec.extractLsb'_and

theorem fieldKK_and (v w : Word) : fieldKK (v &&& w) = fieldKK v &&& fieldKK w := BitVec.extractLsb'_and

theorem fieldT_of_and_F000 {w p : Word} (h : w &&& 0xF000#16 = p) : fieldT w = fieldT p := by
  rw [← h, fieldT_and]
  exact BitVec.and_allOnes.symm

theorem fields_of_and_F00F {w p : Word} (h : w &&& 0xF00F#16 = p) :
    fieldT w = fieldT p ∧ fieldN w = fieldN p := by
  rw [← h, fieldT_and, fieldN_and]
  exact ⟨BitVec.and_allOnes.symm, BitVec.and_allOnes.symm⟩

theorem fields_of_and_F0FF {w p : Word} (h : w &&& 0xF0FF#16 = p) :
    fieldT w = fieldT p ∧ fieldKK w = fieldKK p := by
  rw [← h, fieldT_and, fieldKK_and]
  exact ⟨BitVec.and_allOnes.symm, BitVec.and_allOnes.symm⟩

/-- A word that matches a row decodes to an instruction of that row; of the words of the SYS row, CLS and RET win
theirs. The cases are the four masks of the map, and SYS. -/
theorem decodeWord_of_matchesWord {w : Word} {j : Instr} (h : j.row.matchesWord w = true)
    (hsys : j.row = (Instr.sys 0#12).row → w ≠ 0x00E0#16 ∧ w ≠ 0x00EE#16) :
    ∃ i, decodeWord w = .instr i ∧ i.row = j.row := by
  rw [matchesWord_iff] at h
  cases j with
  | cls | ret =>
    obtain rfl := BitVec.and_allOnes.symm.trans h
    exact ⟨_, rfl, rfl⟩
  | sys =>
    obtain ⟨hcls, hret⟩ := hsys rfl
    dsimp only [Instr.row] at h
    rw [decodeWord, fieldT_of_and_F000 h, decodeFamily0, if_neg hcls, if_neg hret]
    exact ⟨_, rfl, rfl⟩
  | ldReg | orReg | andReg | xorReg | addReg | subReg | shr | subnReg | shl =>
    dsimp only [Instr.row] at h
    obtain ⟨ht, hn⟩ := fields_of_and_F00F h
    rw [decodeWord, ht, hn]
    exact ⟨_, rfl, rfl⟩
  | skp | sknp | ldVxDt | ldVxK | ldDtVx | ldStVx | addIVx | ldFVx | ldBVx | ldMemVx | ldVxMem =>
    dsimp only [Instr.row] at h
    obtain ⟨ht, hkk⟩ := fields_of_and_F0FF h
    rw [decodeWord, ht, hkk]
    exact ⟨_, rfl, rfl⟩
  | _ =>
    dsimp only [Instr.row] at h
    rw [decodeWord, fieldT_of_and_F000 h]
    exact ⟨_, rfl, rfl⟩

/-- Settles O5: a word that decodes is the encoding of its instruction, which matches the instruction's row; the
other direction reads the selecting fields off the row. -/
theorem decodeFollowsTheOpcodeMap : Obligations.DecodeFollowsTheOpcodeMap := by
  unfold Obligations.DecodeFollowsTheOpcodeMap
  refine ⟨fun w i h => ?_, fun w j h hsys => decodeWord_of_matchesWord h hsys⟩
  obtain ⟨rfl, -⟩ := encodeOfDecodeIsTheWord w i h
  exact row_matchesWord_encode i

/-- Settles O1. -/
theorem specWordsDecode : Obligations.SpecWordsDecode := by
  unfold Obligations.SpecWordsDecode
  decide

/-! ### The fields of a word as numbers -/

theorem toNat_wordOfBytes (b0 b1 : Byte) : (wordOfBytes b0 b1).toNat = 256 * b0.toNat + b1.toNat := by
  rw [wordOfBytes, BitVec.toNat_append, ← Nat.shiftLeft_add_eq_or_of_lt b1.isLt, Nat.shiftLeft_eq,
    Nat.mul_comm]

/-- Settles O2: each field is a quotient and a remainder of the word `256 * b0 + b1`. -/
theorem fieldsOfTheWordOfTwoBytes : Obligations.FieldsOfTheWordOfTwoBytes := by
  unfold Obligations.FieldsOfTheWordOfTwoBytes
  intro b0 b1
  have hw := toNat_wordOfBytes b0 b1
  have h0 := b0.isLt
  have h1 := b1.isLt
  refine ⟨hw, ?_, ?_, ?_, ?_, BitVec.extractLsb'_append_eq_right, ?_⟩
  all_goals
    simp only [fieldT, fieldX, fieldY, fieldN, fieldNNN, BitVec.extractLsb'_toNat, hw,
      Nat.shiftRight_eq_div_pow]
    omega

/-! ### No instruction is refused -/

theorem ite_ne_refused {c : Prop} [Decidable c] {s : State} {f : Fault} {r : Refusal} :
    (if c then .next s else .fault f : Result) ≠ .refused r := by
  split <;> nofun

theorem exec_ne_refused (i : Instr) (s : State) (r : Refusal) : exec i s ≠ .refused r := by
  cases i with
  | ret => rw [exec_ret]; split <;> nofun
  | call => rw [exec_call]; split <;> nofun
  | jpV0 => rw [exec_jpV0]; exact ite_ne_refused
  | drw => rw [exec_drw]; exact ite_ne_refused
  | ldBVx => rw [exec_ldBVx]; exact ite_ne_refused
  | ldMemVx => rw [exec_ldMemVx]; exact ite_ne_refused
  | ldVxMem => rw [exec_ldVxMem]; exact ite_ne_refused
  | _ => exact nofun

theorem stepEvent_ne_refused (s : State) (r : Refusal) : stepEvent s ≠ .refused r := by
  unfold stepEvent
  split
  · nofun
  · exact exec_ne_refused _ s r
  · nofun

/-- Settles O10: the end of the turn refuses nothing that the `Step` event did not. -/
theorem nothingIsRefused : Obligations.NothingIsRefused := by
  unfold Obligations.NothingIsRefused
  refine ⟨exec_ne_refused, fun s r h => ?_⟩
  unfold step at h
  cases he : stepEvent s with
  | next t => rw [he] at h; cases h
  | fault f => rw [he] at h; cases h
  | refused q => exact stepEvent_ne_refused s q he

end Sys2Proof.Proofs
end

section
/-! Control flow (spec 40_control_flow): the step on a decoded instruction (R120), SYS, JP, JP V0, CALL and RET (R122
to R127), and the `pc` after every instruction that completes (R121). -/

namespace Sys2Proof.Proofs

open Sys2Proof.Machine Sys2Proof.Safety

/-! ### Frames and completions -/

theorem same_trans {p : Part} {s t u : State} (hst : Same p s t) (htu : Same p t u) : Same p s u := by
  cases p with
  | mem => exact fun a => (htu a).trans (hst a)
  | fb => exact fun r c => (htu r c).trans (hst r c)
  | caller =>
    obtain ⟨hturns, hno⟩ := hst
    exact ⟨htu.1.trans hturns, htu.2.trans hno⟩
  | _ => exact Eq.trans htu hst

/-- One change after another, within the parts `c` that either may change. -/
theorem frame_trans {a b c : List Part} {s t u : State} (hst : Frame a s t) (htu : Frame b t u)
    (ha : a ⊆ c) (hb : b ⊆ c) : Frame c s u :=
  fun p hp => same_trans (hst p fun h => hp (ha h)) (htu p fun h => hp (hb h))

theorem frame_endTurn (s : State) : Frame [.dt, .st, .caller] s s.endTurn := by
  intro p hp; cases p <;> simp_all [Same]

/-- What a completion says holds of the state that the instruction answers. -/
theorem of_completes {i : Instr} {s t : State} {p : State → Prop} (h : Completes i s p)
    (ht : exec i s = .next t) : p t := by
  obtain ⟨t', ht', hp⟩ := h
  cases ht'.symm.trans ht
  exact hp

/-! ### The step on a decoded instruction -/

theorem fetch_of_decode {s : State} {i : Instr} (hpc : s.pc.toNat ≤ 4094)
    (h : decode [codeByte s 0, codeByte s 1] = .instr i) : s.fetch = .run i := by
  have hword : decodeWord (wordOfBytes (Memory.read s.mem s.pc.toNat)
      (Memory.read s.mem (s.pc.toNat + 1))) = .instr i := h
  rw [fetch_eq, if_pos hpc, hword]

theorem step_of_fetch_run {s : State} {i : Instr} (hmode : s.mode = .running)
    (hf : s.fetch = .run i) : step s = mapNext State.endTurn (exec i s) := by
  rw [step, stepEvent, activity_running hmode, hf]

/-- Settles O7: the fetch reads the same two bytes, and every state of the statement is a running one. -/
theorem stepRunsTheDecodedInstruction : Obligations.StepRunsTheDecodedInstruction := by
  unfold Obligations.StepRunsTheDecodedInstruction
  intro s i hmode hpc hdec _
  have hstep := step_of_fetch_run hmode (fetch_of_decode hpc hdec)
  refine ⟨hstep, fun t ht => ⟨?_, fun _ _ => rfl, frame_endTurn t, rfl, rfl⟩⟩
  rw [hstep, ht, mapNext_next]

/-! ### Targets -/

/-- `zext_16(nnn)` is the number `nnn` (30_encoding R93). -/
theorem toNat_addrWord (nnn : Addr12) : (addrWord nnn).toNat = nnn.toNat :=
  BitVec.toNat_setWidth_of_le (by decide)

/-- A one-byte block is in range exactly when its address is one (20_memory R62). -/
theorem inRange_one_iff (a : Nat) : inRange a 1 = true ↔ a ≤ 4095 := by
  rw [inRange_iff]
  omega

/-! ### SYS, JP and JP V0 -/

/-- Settles O23: SYS is its fault by definition, in every state. -/
theorem sysRaisesDecodeFailure : Obligations.SysRaisesDecodeFailure := fun _ _ => rfl

/-- Settles O24: JP is one write of `pc`. -/
theorem jpSetsPcAlone : Obligations.JpSetsPcAlone := by
  unfold Obligations.JpSetsPcAlone
  exact fun s nnn => ⟨_, rfl, toNat_addrWord nnn, fun _ _ => rfl, frame_setPc s _⟩

/-- Settles O25, by the bounds check of the one-byte block at the sum. -/
theorem jpV0ValidatesItsTarget : Obligations.JpV0ValidatesItsTarget := by
  unfold Obligations.JpV0ValidatesItsTarget
  intro s nnn
  refine ⟨fun hle => ?_, fun hgt => ?_⟩
  · exact ⟨_, (exec_jpV0 nnn s).trans (if_pos ((inRange_one_iff _).2 hle)),
      Nat.mod_eq_of_lt (by omega), fun _ _ => rfl, frame_setPc s _⟩
  · exact (exec_jpV0 nnn s).trans (if_neg (mt (inRange_one_iff _).1 hgt.not_ge))

/-! ### CALL and RET -/

theorem frame_setStack_setSp (s : State) (k : Vector Word 16) (n : Fin 17) :
    Frame [.sp, .stack] s ((s.setStack k).setSp n) :=
  frame_trans (frame_setStack s k) (frame_setSp _ n) (by simp) (by simp)

/-- Settles O26, by the two sides of the depth check. -/
theorem callPushesTheReturnAddress : Obligations.CallPushesTheReturnAddress := by
  unfold Obligations.CallPushesTheReturnAddress
  intro s nnn
  refine ⟨fun hne => ?_, fun hfull => ?_⟩
  · have hlt : s.sp.val < 16 := by omega
    refine ⟨_, (exec_call nnn s).trans (dif_pos hlt), toNat_addrWord nnn, rfl, fun k hk => ?_,
      fun _ _ => rfl, ?_⟩
    · simp only [setPc_stack, setSp_stack, setStack_stack, Vector.getElem_set, eq_comm]
    · exact frame_trans (frame_setStack_setSp s _ _) (frame_setPc _ _) (by simp) (by simp)
  · exact (exec_call nnn s).trans (dif_neg (by omega))

/-- Settles O27, by the two sides of the check for an empty stack. -/
theorem retPopsTheReturnAddress : Obligations.RetPopsTheReturnAddress := by
  unfold Obligations.RetPopsTheReturnAddress
  intro s
  refine ⟨fun k hk hsp => ?_, fun hzero => (exec_ret s).trans (dif_pos hzero)⟩
  refine ⟨_, (exec_ret s).trans (dif_neg (by omega)), ?_, ?_, fun _ _ => rfl,
    frame_trans (frame_setSp s _) (frame_setPc _ _) (by simp) (by simp)⟩
  · simp [hsp]
  · simp [hsp]

/-- Settles O28: RET pops the slot that CALL has just pushed, and moves `sp` back. -/
theorem retUndoesCall : Obligations.RetUndoesCall := by
  unfold Obligations.RetUndoesCall
  intro s t nnn hcall
  obtain ⟨hpush, hfull⟩ := callPushesTheReturnAddress s nnn
  have hne : s.sp.val ≠ 16 := fun h => by cases (hfull h).symm.trans hcall
  obtain ⟨-, htsp, htstack, htregs, htframe⟩ := of_completes (hpush hne) hcall
  have hlt : s.sp.val < 16 := by omega
  obtain ⟨u, hret, hupc, husp, huregs, huframe⟩ := (retPopsTheReturnAddress t).1 s.sp.val hlt htsp
  have hsp : u.sp = s.sp := Fin.ext husp
  have hustack : u.stack = t.stack := huframe .stack (by simp)
  refine ⟨u, hret, ?_, hsp, fun k hk => ?_, fun r hr => (huregs r hr).trans (htregs r hr),
    fun p hp => ?_⟩
  · rw [hupc, htstack, if_pos rfl]
  · simp only [hustack, htstack]
  · by_cases hp' : p = .sp
    · subst hp'; exact hsp
    · exact same_trans (htframe p (by simp_all)) (huframe p (by simp_all))

/-! ### `pc` as an exact number -/

/-- A `pc` at which a fetch succeeds moves on without a wrap (10_state R26, 40_control_flow R121). -/
theorem toNat_pc_add_two {s : State} (h : s.pc.toNat ≤ 4094) :
    (s.pc + 2#16).toNat = s.pc.toNat + 2 := by
  rw [BitVec.toNat_add, BitVec.toNat_ofNat]
  omega

theorem toNat_skipIf_pc {s : State} (h : s.pc.toNat ≤ 4094) (c : Bool) :
    (s.skipIf c).pc.toNat = skipPc s c := by
  cases c <;> simp [skipPc] <;> omega

theorem toNat_lowNibble (v : Byte) : (lowNibble v).toNat = v.toNat % 16 := by
  simp [lowNibble]

/-- The key named by the low four bits of `V[x]` (41_skips R145). -/
theorem keyDown_eq (s : State) (x : Nibble) :
    s.keyDown x = s.keys.getLsbD ((s.reg x).toNat % 16) := by
  rw [State.keyDown, toNat_lowNibble]

/-- Settles O30, by where an instruction sends `pc`: to a target of its own, over a skip, nowhere while it waits, or
to the next instruction. -/
theorem pcAdvancesByTheTable : Obligations.PcAdvancesByTheTable := by
  unfold Obligations.PcAdvancesByTheTable
  intro i s t hpc h
  cases i with
  | sys => cases h
  | jp nnn => cases h; exact toNat_addrWord nnn
  | call nnn =>
    rw [exec_call] at h
    split at h
    · cases h; exact toNat_addrWord nnn
    · cases h
  | ret =>
    rw [exec_ret] at h
    split at h
    · cases h
    next hsp => cases h; rw [pcAfter, dif_neg hsp]; rfl
  | jpV0 nnn =>
    rw [exec_jpV0] at h
    obtain ⟨hr, rfl⟩ := ite_eq_next h
    have hle := (inRange_one_iff _).1 hr
    exact Nat.mod_eq_of_lt (by omega)
  | seImm | sneImm | seReg | sneReg => cases h; exact toNat_skipIf_pc hpc _
  | skp x | sknp x =>
    cases h
    rw [pcAfter, ← keyDown_eq]
    exact toNat_skipIf_pc hpc _
  | ldVxK x =>
    rw [exec_ldVxK] at h
    cases h
    by_cases hk : s.keys = 0#16
    · rw [awaitCheck_none x s hk]; exact (if_pos hk).symm
    · rw [awaitCheck_some x s hk]; exact (toNat_pc_add_two hpc).trans (if_neg hk).symm
  | drw => rw [exec_drw] at h; obtain ⟨-, rfl⟩ := ite_eq_next h; exact toNat_pc_add_two hpc
  | ldBVx => rw [exec_ldBVx] at h; obtain ⟨-, rfl⟩ := ite_eq_next h; exact toNat_pc_add_two hpc
  | ldMemVx => rw [exec_ldMemVx] at h; obtain ⟨-, rfl⟩ := ite_eq_next h; exact toNat_pc_add_two hpc
  | ldVxMem => rw [exec_ldVxMem] at h; obtain ⟨-, rfl⟩ := ite_eq_next h; exact toNat_pc_add_two hpc
  | _ => cases h; exact toNat_pc_add_two hpc

end Sys2Proof.Proofs
end

section
/-! The conditional skips (spec 41_skips): all six are one write of `pc` (R140), and differ in the condition only. -/

namespace Sys2Proof.Proofs

open Sys2Proof.Machine Sys2Proof.Safety

/-- `Skip(cond)` meets R140 for every proposition that its Boolean condition decides. -/
theorem skips_of_exec {i : Instr} {s : State} {c : Bool} {cond : Prop}
    (hexec : exec i s = .next (s.skipIf c)) (hc : c = true ↔ cond) : Skips i s cond := by
  refine ⟨s.skipIf c, hexec, fun h => ?_, fun h => ?_, fun _ _ => rfl, frame_setPc s _⟩
  · rw [skipIf_pc, if_pos (hc.2 h)]
  · rw [skipIf_pc, if_neg (mt hc.1 h)]

/-- Settles O29: each instruction is `Skip(cond)` by definition, and its Boolean test decides the condition; the two
key skips test the key that the low four bits of `V[x]` name. -/
theorem skipsMovePcByFourOrTwo : Obligations.SkipsMovePcByFourOrTwo := by
  unfold Obligations.SkipsMovePcByFourOrTwo
  intro s x y n kk
  refine ⟨skips_of_exec rfl beq_iff_eq, skips_of_exec rfl bne_iff_ne, skips_of_exec rfl beq_iff_eq,
    skips_of_exec rfl bne_iff_ne, skips_of_exec rfl ?_, skips_of_exec rfl ?_⟩
  · rw [keyDown_eq]
  · rw [keyDown_eq, Bool.not_eq_true']

end Sys2Proof.Proofs
end

section
/-! The ALU (spec 42_alu): six instructions and RND are one write of `V[x]`; the five that write a flag write it after
the result (R161). -/

namespace Sys2Proof.Proofs

open Sys2Proof.Machine Sys2Proof.Safety

/-! ### One register, then the next instruction -/

theorem frame_setReg_advance (s : State) (x : Nibble) (v : Byte) :
    Frame [.pc] s (s.setReg x v).advance :=
  frame_trans (frame_setRegs s _) (frame_setPc _ _) (List.nil_subset _) (List.Subset.refl _)

theorem setsReg_of_exec {i : Instr} {s : State} {x : Nibble} {v : Byte} {n : Nat}
    (hexec : exec i s = .next (s.setReg x v).advance) (hv : v.toNat = n) : SetsReg i s x n := by
  refine ⟨_, hexec, ?_, rfl, regsFrame_setReg s x v, frame_setReg_advance s x v⟩
  rw [reg_advance, reg_setReg_self, hv]

/-- Settles O31: each instruction is one write of `V[x]` by definition, and the operations on bytes are those on
numbers, modulo 256. -/
theorem loadAndLogicWriteVxAlone : Obligations.LoadAndLogicWriteVxAlone := by
  unfold Obligations.LoadAndLogicWriteVxAlone
  exact fun s x y kk => ⟨setsReg_of_exec rfl rfl, setsReg_of_exec rfl (BitVec.toNat_add _ _),
    setsReg_of_exec rfl rfl, setsReg_of_exec rfl (BitVec.toNat_or _ _),
    setsReg_of_exec rfl (BitVec.toNat_and _ _), setsReg_of_exec rfl (BitVec.toNat_xor _ _)⟩

/-- Settles O35: RND is one write of `V[x]`, and a bit of a conjunction is 0 where the mask's is. -/
theorem rndMasksTheDraw : Obligations.RndMasksTheDraw := by
  unfold Obligations.RndMasksTheDraw
  intro s x kk
  have hx : (s.setReg x (s.rnd &&& kk)).advance.reg x = s.rnd &&& kk := by
    rw [reg_advance, reg_setReg_self]
  refine ⟨_, rfl, hx, fun k hk => ?_, rfl, regsFrame_setReg s x _, frame_setReg_advance s x _⟩
  rw [hx, BitVec.getLsbD_and, hk, Bool.and_false]

/-! ### The result, then the flag -/

theorem frame_writeResultFlag_advance (s : State) (x : Nibble) (v : Byte) (f : Bool) :
    Frame [.pc] s (s.writeResultFlag x v f).advance :=
  frame_trans (frame_setRegs s _) (frame_setReg_advance (s.setReg x v) vf (flagByte f))
    (List.nil_subset _) (List.Subset.refl _)

theorem regsFrame_writeResultFlag (s : State) (x : Nibble) (v : Byte) (f : Bool) :
    RegsFrame [x, vf] s (s.writeResultFlag x v f) := by
  intro r hr
  obtain ⟨hx, hf⟩ : r ≠ x ∧ r ≠ vf := by simpa using hr
  exact reg_writeResultFlag_ne s v f hx hf

/-- The flag is written last, so VF holds it whatever `x` is (42_alu R161). -/
theorem reg_vf_writeResultFlag (s : State) (x : Nibble) (v : Byte) (f : Bool) :
    (s.writeResultFlag x v f).reg vf = flagByte f := by
  rw [reg_writeResultFlag, if_pos rfl]

theorem reg_dest_writeResultFlag (s : State) {x : Nibble} (v : Byte) (f : Bool) (hx : x ≠ vf) :
    (s.writeResultFlag x v f).reg x = v := by
  rw [reg_writeResultFlag, if_neg hx, if_pos rfl]

theorem setsRegAndFlag_of_exec {i : Instr} {s : State} {x : Nibble} {v : Byte} {f : Bool} {n : Nat}
    {flag : Prop} (hexec : exec i s = .next (s.writeResultFlag x v f).advance) (hv : v.toNat = n)
    (hf : f = true ↔ flag) : SetsRegAndFlag i s x n flag := by
  have hvf : (s.writeResultFlag x v f).advance.reg vf = flagByte f := reg_vf_writeResultFlag s x v f
  refine ⟨_, hexec, fun hx => ?_, fun h => hvf.trans (if_pos (hf.2 h)),
    fun h => hvf.trans (if_neg (mt hf.1 h)), rfl, regsFrame_writeResultFlag s x v f,
    frame_writeResultFlag_advance s x v f⟩
  rw [reg_advance, reg_dest_writeResultFlag s v f hx, hv]

/-! ### Results and flags as numbers -/

theorem carryOut_iff (a b : Byte) : carryOut a b = true ↔ 255 < a.toNat + b.toNat := decide_eq_true_iff

theorem notBorrow_iff (a b : Byte) : notBorrow a b = true ↔ b.toNat ≤ a.toNat := decide_eq_true_iff

theorem shrOut_iff (a : Byte) : shrOut a = true ↔ a.toNat % 2 = 1 := by
  rw [shrOut, BitVec.getLsbD, Nat.testBit_zero, decide_eq_true_iff]

theorem shlOut_iff (a : Byte) : shlOut a = true ↔ 128 ≤ a.toNat := by
  have hmsb : shlOut a = a.msb := (BitVec.msb_eq_getLsbD_last a).symm
  rw [hmsb, BitVec.msb_eq_true_iff_two_mul_ge]
  omega

/-- A difference of bytes, with the borrow added first so that the subtraction of numbers is exact (42_alu R169). -/
theorem toNat_sub_byte (a b : Byte) : (a - b).toNat = (a.toNat + 256 - b.toNat) % 256 := by
  rw [BitVec.toNat_sub]
  have hb := b.isLt
  omega

theorem toNat_shiftLeft_one (a : Byte) : (a <<< 1).toNat = 2 * a.toNat % 256 := by
  rw [BitVec.toNat_shiftLeft, Nat.shiftLeft_eq, Nat.mul_comm]

/-- Settles O32. -/
theorem addAndSubtractWriteTheFlagLast : Obligations.AddAndSubtractWriteTheFlagLast := by
  unfold Obligations.AddAndSubtractWriteTheFlagLast
  exact fun s x y => ⟨setsRegAndFlag_of_exec rfl (BitVec.toNat_add _ _) (carryOut_iff _ _),
    setsRegAndFlag_of_exec rfl (toNat_sub_byte _ _) (notBorrow_iff _ _)⟩

/-- Settles O33, by the facts of SUB with the operands exchanged. -/
theorem subnSubtractsTheOtherWay : Obligations.SubnSubtractsTheOtherWay := by
  unfold Obligations.SubnSubtractsTheOtherWay
  exact fun s x y => setsRegAndFlag_of_exec rfl (toNat_sub_byte _ _) (notBorrow_iff _ _)

/-- Settles O34: the bits shifted out are bit 0 and bit 7, the parity and the upper half of the byte. -/
theorem shiftsLeaveTheBitShiftedOut : Obligations.ShiftsLeaveTheBitShiftedOut := by
  unfold Obligations.ShiftsLeaveTheBitShiftedOut
  exact fun s x y =>
    ⟨setsRegAndFlag_of_exec rfl (Nat.shiftRight_eq_div_pow _ 1) (shrOut_iff _),
      setsRegAndFlag_of_exec rfl (toNat_shiftLeft_one _) (shlOut_iff _)⟩

end Sys2Proof.Proofs
end

section
/-! Index register and memory (spec 43_index_memory): the three writers of `I` and the glyph they point at (R190 to
R192, R297), the stores of digits and registers (R193, R194), and the load of registers (R195). -/

namespace Sys2Proof.Proofs

open Sys2Proof.Machine Sys2Proof.Safety

/-! ### The writers of `I` -/

theorem frame_setI_advance (s : State) (w : Word) : Frame [.pc, .i] s (s.setI w).advance :=
  frame_trans (frame_setI s w) (frame_setPc _ _) (by simp) (by simp)

/-- FONT_BASE leaves the 80 glyph bytes below 0x200 (00_scope R5). -/
theorem fontBase_le : Config.fontBase ≤ 432 := Nat.le_of_lt_succ Config.fontBaseOpen.isLt

/-- A glyph address fits in `I`, so it is stored as the number it is. -/
theorem toNat_glyphAddr (v : Byte) :
    (BitVec.ofNat 16 (glyphAddr (lowNibble v))).toNat = Config.fontBase + 5 * (v.toNat % 16) := by
  have hbase := fontBase_le
  rw [BitVec.toNat_ofNat, glyphAddr, toNat_lowNibble, Config.glyphBytes]
  omega

/-- Settles O36: each instruction is one write of `I` by definition, of a number that the statement gives. -/
theorem indexWritersWriteIAlone : Obligations.IndexWritersWriteIAlone := by
  unfold Obligations.IndexWritersWriteIAlone
  intro s x nnn
  refine ⟨⟨_, rfl, toNat_addrWord nnn, rfl, fun _ _ => rfl, frame_setI_advance s _⟩,
    ⟨_, rfl, ?sum, rfl, fun _ _ => rfl, frame_setI_advance s _⟩,
    ⟨_, rfl, toNat_glyphAddr _, ?bound, rfl, fun _ _ => rfl, frame_setI_advance s _⟩⟩
  case sum =>
    rw [advance_i, setI_i, BitVec.toNat_add, BitVec.toNat_setWidth_of_le (by decide)]
  case bound =>
    have hbase := fontBase_le
    rw [advance_i, setI_i, toNat_glyphAddr]
    omega

/-! ### The installed font -/

theorem reg_installFont (s : State) (x : Nibble) : s.installFont.reg x = s.reg x := by
  rw [State.installFont, reg_setMem]

theorem read_installFont (s : State) {j : Nat} (hj : j < 80) :
    Memory.read s.installFont.mem (Config.fontBase + j) = fontBytes.getD j 0#8 := by
  have hlen : j < fontBytes.length := hj
  rw [State.installFont, setMem_mem, read_writeBytes_inside _ _ _ _ hlen, List.getD_eq_getElem _ _ hlen]

/-- Settles O21: the five bytes of a glyph lie among the 80 of the font. -/
theorem ldFFindsTheInstalledGlyph : Obligations.LdFFindsTheInstalledGlyph := by
  unfold Obligations.LdFFindsTheInstalledGlyph
  refine fun s x => ⟨_, rfl, fun k hk => ?_⟩
  rw [advance_mem, setI_mem, advance_i, setI_i, toNat_glyphAddr, reg_installFont, Nat.add_assoc]
  exact read_installFont s (by omega)

/-! ### The stores -/

/-- A block is in range exactly when its last address is one (20_memory R62, R63). -/
theorem inRange_succ_iff (a n : Nat) : inRange a (n + 1) = true ↔ a + n ≤ 4095 := by
  rw [inRange_iff]
  omega

theorem frame_setMem_advance (s : State) (m : Memory) : Frame [.pc, .mem] s (s.setMem m).advance :=
  frame_trans (frame_setMem s m) (frame_setPc _ _) (by simp) (by simp)

/-- Settles O37: memory after the store reads as the digits, each below 10, and as before elsewhere. -/
theorem ldBStoresTheDecimalDigits : Obligations.LdBStoresTheDecimalDigits := by
  unfold Obligations.LdBStoresTheDecimalDigits
  intro s x
  have hread := read_writeBytes_decimalDigits s x
  have hv := (s.reg x).isLt
  refine ⟨fun hle => ?_, fun hgt => ?fault⟩
  case fault => exact (exec_ldBVx x s).trans (if_neg (mt (inRange_succ_iff _ 2).1 hgt.not_ge))
  refine ⟨_, (exec_ldBVx x s).trans (if_pos ((inRange_succ_iff _ 2).2 hle)), ?hundreds, ?tens, ?ones,
    fun a ha => (hread a).trans ?outside, rfl, fun _ _ => rfl, frame_setMem_advance s _⟩
  case hundreds =>
    rw [advance_mem, setMem_mem, hread, digitByte, if_pos rfl]
    exact Nat.mod_eq_of_lt (by omega)
  case tens =>
    rw [advance_mem, setMem_mem, hread, digitByte, if_neg (by omega), if_pos rfl]
    exact Nat.mod_eq_of_lt (by omega)
  case ones =>
    rw [advance_mem, setMem_mem, hread, digitByte, if_neg (by omega), if_neg (by omega), if_pos rfl]
    exact Nat.mod_eq_of_lt (by omega)
  case outside =>
    rw [digitByte, if_neg (by omega), if_neg (by omega), if_neg (by omega)]

theorem blockByte_inside (s : State) {x k : Nibble} (hk : k.toNat ≤ x.toNat) :
    blockByte s x (s.i.toNat + k.toNat) = s.reg k := by
  rw [blockByte, if_pos (by omega), Nat.add_sub_cancel_left, BitVec.ofNat_toNat, BitVec.setWidth_eq]

theorem blockByte_outside (s : State) {x : Nibble} {a : Nat}
    (ha : a < s.i.toNat ∨ s.i.toNat + x.toNat < a) : blockByte s x a = Memory.read s.mem a := by
  rw [blockByte, if_neg (by omega)]

/-- Settles O38: memory after the store reads as the block of registers, and as before elsewhere. -/
theorem ldMemStoresTheRegisterBlock : Obligations.LdMemStoresTheRegisterBlock := by
  unfold Obligations.LdMemStoresTheRegisterBlock
  intro s x
  have hread := read_writeBytes_regBlock s x
  refine ⟨fun hle => ?_, fun hgt => ?_⟩
  · exact ⟨_, (exec_ldMemVx x s).trans (if_pos ((inRange_succ_iff _ _).2 hle)),
      fun k hk => (hread _).trans (blockByte_inside s hk),
      fun a ha => (hread a).trans (blockByte_outside s ha), rfl, fun _ _ => rfl, frame_setMem_advance s _⟩
  · exact (exec_ldMemVx x s).trans (if_neg (mt (inRange_succ_iff _ _).1 hgt.not_ge))

/-! ### The load -/

/-- The registers after `n` bytes from `a` are loaded from `V[0]` up. -/
theorem reg_loadRegs_readBytes (s : State) (a n : Nat) (k : Nibble) :
    (s.setRegs (loadRegs s.regs 0 (Memory.readBytes s.mem a n))).reg k =
      if k.toNat < n then Memory.read s.mem (a + k.toNat) else s.reg k := by
  split
  case isTrue hk =>
    have hlen : k.toNat < (Memory.readBytes s.mem a n).length := by rwa [length_readBytes]
    have hload := getElem_loadRegs s.regs 0 k.toNat (Memory.readBytes s.mem a n) k.isLt
    rw [if_pos (Nat.zero_le _), Nat.sub_zero, List.getD_eq_getElem _ _ hlen] at hload
    exact hload.trans (getElem_readBytes s.mem a n _ hlen)
  case isFalse hk => exact reg_loadRegs_above s (by rw [length_readBytes]; omega)

/-- Settles O39: the registers after the load read as the bytes of the block up to `x`, and as before above it. -/
theorem ldVxMemLoadsTheRegisterBlock : Obligations.LdVxMemLoadsTheRegisterBlock := by
  unfold Obligations.LdVxMemLoadsTheRegisterBlock
  intro s x
  refine ⟨fun hle => ?_, fun hgt => ?_⟩
  · refine ⟨_, (exec_ldVxMem x s).trans (if_pos ((inRange_succ_iff _ _).2 hle)), fun k => ?_, rfl,
      frame_trans (frame_setRegs s _) (frame_setPc _ _) (List.nil_subset _) (List.Subset.refl _)⟩
    rw [reg_advance, reg_loadRegs_readBytes]
    simp only [Nat.lt_succ_iff]
  · exact (exec_ldVxMem x s).trans (if_neg (mt (inRange_succ_iff _ _).1 hgt.not_ge))

end Sys2Proof.Proofs
end

section
/-! The display (spec 44_display): CLS (R211), the sprite that DRW draws (R210, R212), and the same sprite drawn twice
(R213). A sprite is at most 15 rows by 8 columns, so its bits fall on pixels that differ even after wrapping: each
pixel is inverted at most once, and a collision is seen on the framebuffer as it was before the draw. -/

namespace Sys2Proof.Proofs

open Sys2Proof.Machine Sys2Proof.Safety

/-! ### CLS -/

theorem frame_setFb (s : State) (f : Framebuffer) : Frame [.fb] s (s.setFb f) := by
  intro p hp; cases p <;> simp_all [Same]

theorem frame_setFb_advance (s : State) (f : Framebuffer) : Frame [.pc, .fb] s (s.setFb f).advance :=
  frame_trans (frame_setFb s f) (frame_setPc _ _) (by simp) (by simp)

/-- Settles O41: CLS is one write of the framebuffer by definition. -/
theorem clsClearsEveryPixel : Obligations.ClsClearsEveryPixel := by
  unfold Obligations.ClsClearsEveryPixel
  exact fun s => ⟨_, rfl, pixel_clear, rfl, fun _ _ => rfl, frame_setFb_advance s _⟩

/-! ### Drawing as the inversion of a set of pixels -/

/-- From `p` to `q` the pixels in `on` are inverted and no other, and `q` has seen a collision besides those of `p`
when one of them was on in `p`. -/
structure Inverts (on : Nat → Nat → Prop) (p q : Canvas) : Prop where
  inside : ∀ r c, on r c → Framebuffer.pixel q.fb r c = !Framebuffer.pixel p.fb r c
  outside : ∀ r c, ¬on r c → Framebuffer.pixel q.fb r c = Framebuffer.pixel p.fb r c
  collision : q.collision = true ↔
    p.collision = true ∨ ∃ r c, on r c ∧ Framebuffer.pixel p.fb r c = true

theorem Inverts.of_forall_not {on : Nat → Nat → Prop} (p : Canvas) (h : ∀ r c, ¬on r c) : Inverts on p p where
  inside r c hon := absurd hon (h r c)
  outside _ _ _ := rfl
  collision := ⟨.inl, fun hp => hp.resolve_right fun ⟨r, c, hon, _⟩ => h r c hon⟩

/-- Two sets with no pixel in common, inverted one after the other, are inverted together: the second inversion
meets the pixels of its set as they were before the first. -/
theorem Inverts.trans {first second on : Nat → Nat → Prop} {p q u : Canvas} (hpq : Inverts first p q)
    (hqu : Inverts second q u) (hdisj : ∀ r c, first r c → ¬second r c)
    (hon : ∀ r c, on r c ↔ first r c ∨ second r c) : Inverts on p u where
  inside r c h := by
    rcases (hon r c).1 h with hf | hs
    · rw [hqu.outside r c (hdisj r c hf), hpq.inside r c hf]
    · rw [hqu.inside r c hs, hpq.outside r c fun hf => hdisj r c hf hs]
  outside r c h := by
    have hf : ¬first r c := fun hf => h ((hon r c).2 (.inl hf))
    have hs : ¬second r c := fun hs => h ((hon r c).2 (.inr hs))
    rw [hqu.outside r c hs, hpq.outside r c hf]
  collision := by
    have hsecond : ∀ r c, second r c ∧ Framebuffer.pixel q.fb r c = true ↔
        second r c ∧ Framebuffer.pixel p.fb r c = true := fun r c =>
      and_congr_right fun hs => by rw [hpq.outside r c fun hf => hdisj r c hf hs]
    simp only [hqu.collision, hpq.collision, hsecond, hon, or_and_right, exists_or, or_assoc]

/-! ### A bit, a row, a sprite -/

theorem pixel_congr (f : Framebuffer) {r c r' c' : Nat} (hr : r' % 32 = r % 32) (hc : c' % 64 = c % 64) :
    Framebuffer.pixel f r' c' = Framebuffer.pixel f r c := by
  rw [← pixel_wrap f r', hr, hc, pixel_wrap]

/-- The pixel `(r', c')` is the one at row `r` and column `c`, each wrapped, and the bit that falls there is 1. -/
def BitOn (bit : Bool) (r c r' c' : Nat) : Prop := bit = true ∧ r' % 32 = r % 32 ∧ c' % 64 = c % 64

/-- A 1 bit among the first `k` columns of a sprite byte falls on the pixel `(r', c')` (44_display R210). -/
def RowOn (b : Byte) (r vx k r' c' : Nat) : Prop :=
  ∃ col < k, BitOn (b.getLsbD (7 - col)) r (vx + col) r' c'

/-- A 1 bit of the sprite of `n` bytes from `a` falls on the pixel `(r', c')` (44_display R210). -/
def SpriteOn (m : Memory) (a n vy vx r' c' : Nat) : Prop :=
  ∃ row < n, RowOn (Memory.read m (a + row)) (vy + row) vx 8 r' c'

theorem inverts_plot (p : Canvas) (bit : Bool) (r c : Nat) :
    Inverts (BitOn bit r c) p (p.plot bit r c) where
  inside r' c' := fun ⟨hbit, hpos⟩ => by rw [pixel_plot, hbit, decide_eq_true hpos]; exact Bool.xor_true _
  outside r' c' h := by
    have hoff : (bit && decide (r' % 32 = r % 32 ∧ c' % 64 = c % 64)) = false := by
      simpa [BitOn] using h
    rw [pixel_plot, hoff, Bool.xor_false]
  collision := by
    rw [collision_plot, Bool.or_eq_true, Bool.and_eq_true]
    refine or_congr_right ⟨fun ⟨hbit, hp⟩ => ⟨r, c, ⟨hbit, rfl, rfl⟩, hp⟩, ?_⟩
    rintro ⟨r', c', ⟨hbit, hr, hc⟩, hp⟩
    exact ⟨hbit, pixel_congr p.fb hr hc ▸ hp⟩

/-- Up to 64 columns wrap to different ones, so the next column is not one of those before it. -/
theorem inverts_drawRow (p : Canvas) (b : Byte) (r vx : Nat) {k : Nat} (hk : k ≤ 64) :
    Inverts (RowOn b r vx k) p (p.drawRow b r vx k) := by
  induction k with
  | zero => exact .of_forall_not p fun _ _ ⟨_, hcol, _⟩ => Nat.not_lt_zero _ hcol
  | succ k ih =>
    refine (ih (Nat.le_of_succ_le hk)).trans (inverts_plot _ _ r (vx + k)) ?_
      fun r' c' => Nat.exists_lt_succ_right
    rintro r' c' ⟨col, hcol, -, -, hc⟩ ⟨-, -, hc'⟩
    omega

/-- Up to 32 rows wrap to different ones, so the first row is not one of those below it. -/
theorem inverts_drawRows (m : Memory) (p : Canvas) (a vy vx : Nat) {n : Nat} (hn : n ≤ 32) :
    Inverts (SpriteOn m a n vy vx) p (p.drawRows (Memory.readBytes m a n) vy vx) := by
  induction n generalizing p a vy with
  | zero => exact .of_forall_not p fun _ _ ⟨_, hrow, _⟩ => Nat.not_lt_zero _ hrow
  | succ n ih =>
    refine (inverts_drawRow p (Memory.read m a) vy vx (by decide)).trans
      (ih _ (a + 1) (vy + 1) (Nat.le_of_succ_le hn)) ?_ fun r c => ?_
    · rintro r c ⟨_, -, -, hr, -⟩ ⟨row, hrow, _, -, -, hr', -⟩
      omega
    · simp only [SpriteOn, Nat.exists_lt_succ_left, Nat.add_right_comm _ 1]
      rfl

/-! ### DRW -/

/-- The state that DRW leaves once its sprite is drawn: the canvas's pixels, its collision in VF, the next
instruction (44_display R212). -/
def afterDraw (s : State) (p : Canvas) : State := ((s.setFb p.fb).setReg vf (flagByte p.collision)).advance

theorem exec_drw_of_inRange {x y n : Nibble} {s : State} (hr : inRange s.i.toNat n.toNat = true) :
    exec (.drw x y n) s = .next (afterDraw s (drawn x y n s)) :=
  (exec_drw x y n s).trans (if_pos hr)

theorem frame_afterDraw (s : State) (p : Canvas) : Frame [.pc, .fb] s (afterDraw s p) :=
  frame_trans (frame_setFb s p.fb) (frame_setReg_advance _ vf _) (by simp) (by simp)

theorem regsFrame_afterDraw (s : State) (p : Canvas) : RegsFrame [vf] s (afterDraw s p) :=
  regsFrame_setReg (s.setFb p.fb) vf _

theorem reg_vf_afterDraw (s : State) (p : Canvas) : (afterDraw s p).reg vf = flagByte p.collision :=
  reg_setReg_self (s.setFb p.fb) vf _

theorem flagByte_eq_one_iff {f : Bool} : flagByte f = 1#8 ↔ f = true := by
  cases f <;> decide

theorem reg_vf_afterDraw_eq_one_iff {s : State} {p : Canvas} :
    (afterDraw s p).reg vf = 1#8 ↔ p.collision = true := by
  rw [reg_vf_afterDraw, flagByte_eq_one_iff]

/-- The pixels under the 1 bits of the sprite that DRW draws from `s`. -/
def DrwOn (x y n : Nibble) (s : State) : Nat → Nat → Prop :=
  SpriteOn s.mem s.i.toNat n.toNat (s.reg y).toNat (s.reg x).toNat

theorem inverts_drawn (x y n : Nibble) (s : State) :
    Inverts (DrwOn x y n s) { fb := s.fb, collision := false } (drawn x y n s) :=
  inverts_drawRows s.mem _ _ _ _ (n.isLt.le.trans (by decide))

/-- Two bits of a sprite that fall on the same pixel are the same bit. -/
theorem drwOn_at_iff {x y n : Nibble} {s : State} {row col : Nat} (hrow : row < n.toNat) (hcol : col < 8) :
    DrwOn x y n s ((s.reg y).toNat + row) ((s.reg x).toNat + col) ↔
      (Memory.read s.mem (s.i.toNat + row)).getLsbD (7 - col) = true := by
  refine ⟨?_, fun hbit => ⟨row, hrow, col, hcol, hbit, rfl, rfl⟩⟩
  rintro ⟨row', hrow', col', hcol', hbit, hr, hc⟩
  have hn := n.isLt
  obtain rfl : row' = row := by omega
  obtain rfl : col' = col := by omega
  exact hbit

/-- The sprite's 1 bits met on a framebuffer, by pixels and by rows and columns of the sprite. -/
theorem exists_drwOn_pixel_iff {x y n : Nibble} {s : State} {f : Framebuffer} {v : Bool} :
    (∃ r c, DrwOn x y n s r c ∧ Framebuffer.pixel f r c = v) ↔
      ∃ row col, row < n.toNat ∧ col < 8 ∧
        (Memory.read s.mem (s.i.toNat + row)).getLsbD (7 - col) = true ∧
        Framebuffer.pixel f ((s.reg y).toNat + row) ((s.reg x).toNat + col) = v := by
  constructor
  · rintro ⟨r, c, ⟨row, hrow, col, hcol, hbit, hr, hc⟩, hp⟩
    exact ⟨row, col, hrow, hcol, hbit, pixel_congr f hr hc ▸ hp⟩
  · rintro ⟨row, col, hrow, hcol, hbit, hp⟩
    exact ⟨_, _, (drwOn_at_iff hrow hcol).2 hbit, hp⟩

theorem collision_drawn_iff {x y n : Nibble} {s : State} : (drawn x y n s).collision = true ↔
    ∃ r c, DrwOn x y n s r c ∧ Framebuffer.pixel s.fb r c = true :=
  (inverts_drawn x y n s).collision.trans (or_iff_right Bool.false_ne_true)

theorem pixel_drawn_at {x y n : Nibble} {s : State} {row col : Nat} (hrow : row < n.toNat) (hcol : col < 8) :
    Framebuffer.pixel (drawn x y n s).fb ((s.reg y).toNat + row) ((s.reg x).toNat + col) =
      (Framebuffer.pixel s.fb ((s.reg y).toNat + row) ((s.reg x).toNat + col) ^^
        (Memory.read s.mem (s.i.toNat + row)).getLsbD (7 - col)) := by
  have hon := drwOn_at_iff (x := x) (y := y) (s := s) hrow hcol
  cases hbit : (Memory.read s.mem (s.i.toNat + row)).getLsbD (7 - col) with
  | true => exact ((inverts_drawn x y n s).inside _ _ (hon.2 hbit)).trans (Bool.xor_true _).symm
  | false =>
    have hoff := mt hon.1 (by rw [hbit]; exact Bool.false_ne_true)
    exact ((inverts_drawn x y n s).outside _ _ hoff).trans (Bool.xor_false _).symm

/-- Settles O42: the sprite's 1 bits invert their pixels, each once, and the bounds of the sprite are those of the
block of bytes at `I`. -/
theorem drwXorsTheSprite : Obligations.DrwXorsTheSprite := by
  unfold Obligations.DrwXorsTheSprite
  intro s x y n
  refine ⟨fun hfits => ?completes, fun hpos hgt => ?fault⟩
  case fault =>
    refine (exec_drw x y n s).trans (if_neg fun hr => ?_)
    have hle := (inRange_iff _ _).1 hr
    omega
  case completes =>
    have hr : inRange s.i.toNat n.toNat = true := (inRange_iff _ _).2 (by omega)
    refine ⟨_, exec_drw_of_inRange hr, fun row col => pixel_drawn_at, fun r c hfree => ?outside, ?flag,
      ?collision, rfl, regsFrame_afterDraw s _, frame_afterDraw s _⟩
    case outside =>
      refine (inverts_drawn x y n s).outside r c ?_
      rintro ⟨row, hrow, col, hcol, -, hrow_eq, hcol_eq⟩
      exact hfree row col hrow hcol ⟨hrow_eq.symm, hcol_eq.symm⟩
    case flag =>
      have hvf := reg_vf_afterDraw s (drawn x y n s)
      exact (ite_eq_or_eq _ _ _).imp hvf.trans hvf.trans
    case collision =>
      exact reg_vf_afterDraw_eq_one_iff.trans (collision_drawn_iff.trans exists_drwOn_pixel_iff)

/-! ### The same sprite drawn twice -/

/-- The sprite's pixels do not depend on the framebuffer that it is drawn on. -/
theorem inverts_drawn_setFb (x y n : Nibble) (s : State) (f : Framebuffer) :
    Inverts (DrwOn x y n s) { fb := f, collision := false } (drawn x y n (s.setFb f)) :=
  inverts_drawn x y n (s.setFb f)

/-- After a draw that takes no coordinate from VF, the same sprite is drawn on what the first draw left. -/
theorem drawn_afterDraw {x y : Nibble} (n : Nibble) (s : State) (p : Canvas) (hx : x ≠ vf) (hy : y ≠ vf) :
    drawn x y n (afterDraw s p) = drawn x y n (s.setFb p.fb) :=
  drawn_setReg (s.setFb p.fb) n (flagByte p.collision) hx.symm hy.symm

theorem fb_drawn_twice (x y n : Nibble) (s : State) :
    (drawn x y n (s.setFb (drawn x y n s).fb)).fb = s.fb := by
  have hfirst := inverts_drawn x y n s
  have hsecond := inverts_drawn_setFb x y n s (drawn x y n s).fb
  refine framebuffer_ext _ _ fun r c _ _ => ?_
  by_cases hon : DrwOn x y n s r c
  · rw [hsecond.inside r c hon, hfirst.inside r c hon, Bool.not_not]
  · rw [hsecond.outside r c hon, hfirst.outside r c hon]

theorem collision_drawn_twice_iff {x y n : Nibble} {s : State} :
    (drawn x y n (s.setFb (drawn x y n s).fb)).collision = true ↔
      ∃ r c, DrwOn x y n s r c ∧ Framebuffer.pixel s.fb r c = false := by
  refine collision_drawn_iff.trans (exists₂_congr fun r c => and_congr_right fun hon => ?_)
  rw [setFb_fb, (inverts_drawn x y n s).inside r c hon, Bool.not_eq_true']

/-- Settles O43: the second draw inverts the same pixels as the first, on the framebuffer that the first left. -/
theorem drawingTwiceRestoresTheFramebuffer : Obligations.DrawingTwiceRestoresTheFramebuffer := by
  unfold Obligations.DrawingTwiceRestoresTheFramebuffer
  intro s t x y n hx hy h
  rw [exec_drw] at h
  obtain ⟨hr, rfl⟩ := ite_eq_next h
  have hsame := drawn_afterDraw n s (drawn x y n s) hx hy
  refine ⟨_, exec_drw_of_inRange hr, (congrArg Canvas.fb hsame).trans (fb_drawn_twice x y n s), ?_⟩
  refine reg_vf_afterDraw_eq_one_iff.trans ?_
  rw [← exists_drwOn_pixel_iff, ← collision_drawn_twice_iff]
  exact iff_of_eq (congrArg (·.collision = true) hsame)

end Sys2Proof.Proofs
end

section
/-! Timers and keys (spec 45_timers_keys): the three timer instructions are one write each (R230 to R232), and both a
step in the key wait and LD Vx,K are the one key check (R233, R234). -/

namespace Sys2Proof.Proofs

open Sys2Proof.Machine Sys2Proof.Safety

/-! ### The timers -/

theorem frame_setDt_advance (s : State) (v : Byte) : Frame [.pc, .dt] s (s.setDt v).advance :=
  frame_trans (frame_setDt s v) (frame_setPc _ _) (by simp) (by simp)

theorem frame_setSt_advance (s : State) (v : Byte) : Frame [.pc, .st] s (s.setSt v).advance :=
  frame_trans (frame_setSt s v) (frame_setPc _ _) (by simp) (by simp)

/-- Settles O44: each instruction is one write by definition, and `sound_on` reads ST as it then stands. -/
theorem timerInstructionsCopyTheTimers : Obligations.TimerInstructionsCopyTheTimers := by
  unfold Obligations.TimerInstructionsCopyTheTimers
  exact fun s x => ⟨setsReg_of_exec rfl rfl,
    ⟨_, rfl, rfl, rfl, fun _ _ => rfl, frame_setDt_advance s _⟩,
    ⟨_, rfl, rfl, bne_iff_ne, rfl, fun _ _ => rfl, frame_setSt_advance s _⟩⟩

/-! ### The least key -/

theorem exists_getLsbD_of_ne_zero {keys : BitVec 16} (h : keys ≠ 0#16) :
    ∃ k < 16, keys.getLsbD k = true := by
  by_contra! hnone
  exact h (BitVec.eq_of_getLsbD_eq fun k hk => by simpa using hnone k hk)

/-- With a key down, the search for the least key finds one. -/
theorem find?_eq_some_leastKey {keys : BitVec 16} (h : keys ≠ 0#16) :
    (List.range 16).find? (fun k => keys.getLsbD k) = some (leastKey keys) := by
  obtain ⟨k, hk, hdown⟩ := exists_getLsbD_of_ne_zero h
  have hsome : ((List.range 16).find? fun k => keys.getLsbD k).isSome :=
    List.find?_isSome.2 ⟨k, List.mem_range.2 hk, hdown⟩
  obtain ⟨j, hj⟩ := Option.isSome_iff_exists.1 hsome
  rw [leastKey, hj, Option.getD_some]

/-- With a key down, `leastKey` is the least key down (45_timers_keys R234). -/
theorem leastKey_spec {keys : BitVec 16} (h : keys ≠ 0#16) :
    leastKey keys < 16 ∧ keys.getLsbD (leastKey keys) = true ∧
      ∀ j, j < leastKey keys → keys.getLsbD j = false := by
  obtain ⟨hdown, hlt, hleast⟩ := List.find?_range_eq_some.1 (find?_eq_some_leastKey h)
  exact ⟨List.mem_range.1 hlt, hdown, fun j hj => by simpa using hleast j hj⟩

/-! ### The key check -/

theorem toNat_reg_awaitCheck (r : Nibble) {s : State} (h : s.keys ≠ 0#16) :
    ((s.awaitCheck r).reg r).toNat = leastKey s.keys := by
  obtain ⟨hlt, -, -⟩ := leastKey_spec h
  rw [awaitCheck_some r s h, reg_setMode, reg_advance, reg_setReg_self, BitVec.toNat_ofNat,
    Nat.mod_eq_of_lt (hlt.trans (by decide))]

theorem awaitCheck_pc (r : Nibble) {s : State} (h : s.keys ≠ 0#16) :
    (s.awaitCheck r).pc = s.pc + 2#16 := by
  rw [awaitCheck_some r s h]; rfl

theorem awaitCheck_mode (r : Nibble) {s : State} (h : s.keys ≠ 0#16) :
    (s.awaitCheck r).mode = .running := by
  rw [awaitCheck_some r s h]; rfl

theorem regsFrame_awaitCheck (r : Nibble) (s : State) : RegsFrame [r] s (s.awaitCheck r) :=
  fun _ hx => reg_awaitCheck_ne s (List.ne_of_not_mem_cons hx)

theorem frame_awaitCheck (r : Nibble) (s : State) : Frame [.pc, .mode] s (s.awaitCheck r) := by
  by_cases h : s.keys = 0#16
  · rw [awaitCheck_none r s h]
    exact fun p hp => frame_setMode s _ p (mt (List.mem_cons_of_mem _) hp)
  · rw [awaitCheck_some r s h]
    exact frame_trans (frame_setReg_advance s r _) (frame_setMode _ _) (by simp) (by simp)

/-- The `Step` event of a waiting machine is the key check, whatever stands at `pc` (40_control_flow R120). -/
theorem stepEvent_awaitingKey {s : State} {r : Nibble} (h : s.mode = .awaitingKey r) :
    stepEvent s = .next (s.awaitCheck r) := by
  rw [stepEvent, activity_awaitingKey h]

/-- Without a key down the check leaves a waiting machine as it is. -/
theorem awaitCheck_eq_self {s : State} {r : Nibble} (hmode : s.mode = .awaitingKey r)
    (hkeys : s.keys = 0#16) : s.awaitCheck r = s := by
  rw [awaitCheck_none r s hkeys, ← hmode]
  rfl

/-- Settles O13: the step is the key check on the waiting state. -/
theorem waitingStepChecksTheKeys : Obligations.WaitingStepChecksTheKeys := by
  unfold Obligations.WaitingStepChecksTheKeys
  intro s r hmode
  have hstep := stepEvent_awaitingKey hmode
  refine ⟨s.awaitCheck r, hstep, by rw [step, hstep, mapNext_next], fun hkeys => ?none, fun hkeys => ?some⟩
  case none =>
    rw [hstep, awaitCheck_eq_self hmode hkeys]
    exact ⟨rfl, stepResult_waiting (by rw [hmode]; nofun)⟩
  case some =>
    obtain ⟨hlt, hdown, hleast⟩ := leastKey_spec hkeys
    rw [hstep]
    exact ⟨stepResult_running (awaitCheck_mode r hkeys), leastKey s.keys, hlt, hdown, hleast,
      toNat_reg_awaitCheck r hkeys, awaitCheck_pc r hkeys, awaitCheck_mode r hkeys,
      regsFrame_awaitCheck r s, frame_awaitCheck r s⟩

/-- Settles O45: the instruction is the key check on the running state. -/
theorem ldVxKTakesAKeyOrWaits : Obligations.LdVxKTakesAKeyOrWaits := by
  unfold Obligations.LdVxKTakesAKeyOrWaits
  refine fun s x => ⟨fun hkeys => ?some, fun hkeys => ?none⟩
  case some =>
    obtain ⟨hlt, hdown, hleast⟩ := leastKey_spec hkeys
    have hmode := awaitCheck_mode x hkeys
    exact ⟨_, exec_ldVxK x s, ⟨leastKey s.keys, hlt, hdown, hleast, toNat_reg_awaitCheck x hkeys⟩,
      awaitCheck_pc x hkeys, hmode, stepResult_running hmode, regsFrame_awaitCheck x s,
      frame_awaitCheck x s⟩
  case none =>
    have hexec := exec_ldVxK x s
    rw [awaitCheck_none x s hkeys] at hexec
    exact ⟨_, hexec, rfl, rfl, rfl, fun _ _ => rfl, frame_setMode s _⟩

end Sys2Proof.Proofs
end

section
/-! The faults of a step (spec 60_exceptions): the illegal words (R251, R96), the order fetch, decode, own check
(R257), and that a fault comes again (R259). -/

namespace Sys2Proof.Proofs

open Sys2Proof.Machine Sys2Proof.Safety

/-! ### Words that decode to an executing instruction -/

/-- What decoding answered is one of the 34 instructions that execute: no rejection, and not SYS (R122). -/
def Executes (d : Decoded) : Prop := ∃ i, d = .instr i ∧ ∀ nnn, i ≠ .sys nnn

theorem executes_instr_iff {i : Instr} : Executes (.instr i) ↔ ∀ nnn, i ≠ .sys nnn := by
  simp [Executes]

theorem not_executes_reject (r : DecodeReject) : ¬Executes (.reject r) := nofun

theorem executes_decodeFamily0_iff (w : Word) :
    Executes (.instr (decodeFamily0 w)) ↔ w ∈ [0x00E0#16, 0x00EE#16] := by
  rw [executes_instr_iff, decodeFamily0]
  split_ifs <;> simp_all

theorem executes_decodeFamily8_iff (x y n : Nibble) :
    Executes (decodeFamily8 x y n) ↔ n.toNat ∉ [0x8, 0x9, 0xA, 0xB, 0xC, 0xD, 0xF] := by
  have hlt := n.isLt
  unfold decodeFamily8
  split
  case h_10 =>
    simp only [imp_false, not_executes_reject, false_iff, not_not, List.mem_cons, List.not_mem_nil] at *
    omega
  all_goals simp_all [executes_instr_iff]

theorem executes_decodeFamilyE_iff (x : Nibble) (kk : Byte) :
    Executes (decodeFamilyE x kk) ↔ kk.toNat ∈ [0x9E, 0xA1] := by
  unfold decodeFamilyE
  split_ifs <;> simp_all [executes_instr_iff, not_executes_reject, BitVec.toNat_eq]

theorem executes_decodeFamilyF_iff (x : Nibble) (kk : Byte) :
    Executes (decodeFamilyF x kk) ↔
      kk.toNat ∈ [0x07, 0x0A, 0x15, 0x18, 0x1E, 0x29, 0x33, 0x55, 0x65] := by
  unfold decodeFamilyF
  split_ifs <;> simp_all [executes_instr_iff, not_executes_reject, BitVec.toNat_eq]

/-! ### The illegal words by their fields -/

theorem toNat_fieldT (w : Word) : (fieldT w).toNat = w.toNat / 0x1000 := by
  rw [fieldT, BitVec.extractLsb'_toNat, Nat.shiftRight_eq_div_pow]
  omega

theorem toNat_fieldN (w : Word) : (fieldN w).toNat = w.toNat % 16 := BitVec.extractLsb'_toNat ..

theorem toNat_fieldKK (w : Word) : (fieldKK w).toNat = w.toNat % 256 := BitVec.extractLsb'_toNat ..

theorem illegalWord_iff_fields (w : Word) : IllegalWord w ↔
    ((fieldT w).toNat = 0x0 ∧ w ∉ [0x00E0#16, 0x00EE#16]) ∨
    ((fieldT w).toNat = 0x8 ∧ (fieldN w).toNat ∈ [0x8, 0x9, 0xA, 0xB, 0xC, 0xD, 0xF]) ∨
    ((fieldT w).toNat = 0xE ∧ (fieldKK w).toNat ∉ [0x9E, 0xA1]) ∨
    ((fieldT w).toNat = 0xF ∧
      (fieldKK w).toNat ∉ [0x07, 0x0A, 0x15, 0x18, 0x1E, 0x29, 0x33, 0x55, 0x65]) := by
  have hzero : w.toNat < 0x1000 ↔ (fieldT w).toNat = 0x0 := by rw [toNat_fieldT]; omega
  rw [IllegalWord, hzero, toNat_fieldT, toNat_fieldN, toNat_fieldKK]
  simp [BitVec.toNat_eq]

/-- The legal words are those that decode to an executing instruction (30_encoding R94, R96): families 0, 8, E and F
each have theirs, and the other families execute every word. -/
theorem executes_decodeWord_iff (w : Word) : Executes (decodeWord w) ↔ ¬IllegalWord w := by
  rw [illegalWord_iff_fields]
  unfold decodeWord
  split
  case h_1 ht => simp [ht, executes_decodeFamily0_iff, -List.mem_cons]
  case h_9 ht => simp [ht, executes_decodeFamily8_iff, -List.mem_cons]
  case h_15 ht => simp [ht, executes_decodeFamilyE_iff, -List.mem_cons]
  case h_16 =>
    have ht : (fieldT w).toNat = 0xF := by
      have hlt := (fieldT w).isLt
      simp only [imp_false] at *
      omega
    simp [ht, executes_decodeFamilyF_iff, -List.mem_cons]
  all_goals
    next ht => simp [ht, executes_instr_iff]

/-! ### What a step does, by what it fetches -/

theorem step_of_fetch_fail {s : State} {f : Fault} (hmode : s.mode = .running)
    (hf : s.fetch = .fail f) : step s = .fault f := by
  rw [step, stepEvent, activity_running hmode, hf]
  rfl

theorem step_awaitingKey {s : State} {r : Nibble} (h : s.mode = .awaitingKey r) :
    step s = .next (s.awaitCheck r).endTurn := by
  rw [step, stepEvent_awaitingKey h, mapNext_next]

theorem fetch_of_pc_le {s : State} (h : s.pc.toNat ≤ 4094) : s.fetch = wordActivity (codeWord s) := by
  rw [fetch_eq, if_pos h]
  rfl

theorem fetch_of_pc_gt {s : State} (h : 4094 < s.pc.toNat) : s.fetch = .fail .memoryBounds := by
  rw [fetch_eq, if_neg h.not_ge]

theorem fetch_of_instr {s : State} {i : Instr} (hpc : s.pc.toNat ≤ 4094)
    (hd : decodeWord (codeWord s) = .instr i) : s.fetch = .run i := by
  rw [fetch_of_pc_le hpc, wordActivity, hd]

theorem fetch_of_reject {s : State} {r : DecodeReject} (hpc : s.pc.toNat ≤ 4094)
    (hd : decodeWord (codeWord s) = .reject r) : s.fetch = .fail .decodeFailure := by
  rw [fetch_of_pc_le hpc, wordActivity, hd]

/-- A fetched word that is no executing instruction is DecodeFailure, from decode or from SYS (R251, R122). -/
theorem step_of_not_executes {s : State} (hmode : s.mode = .running) (hpc : s.pc.toNat ≤ 4094)
    (h : ¬Executes (decodeWord (codeWord s))) : step s = .fault .decodeFailure := by
  cases hd : decodeWord (codeWord s) with
  | reject r => exact step_of_fetch_fail hmode (fetch_of_reject hpc hd)
  | instr i =>
    rw [hd, executes_instr_iff] at h
    push Not at h
    obtain ⟨nnn, rfl⟩ := h
    rw [step_of_fetch_run hmode (fetch_of_instr hpc hd)]
    rfl

/-- Settles O6: the legal words are those that decode to an executing instruction. -/
theorem illegalWordsRaiseDecodeFailure : Obligations.IllegalWordsRaiseDecodeFailure := by
  unfold Obligations.IllegalWordsRaiseDecodeFailure
  intro s hmode hpc
  have hlegal := executes_decodeWord_iff (codeWord s)
  refine ⟨fun hill => step_of_not_executes hmode hpc fun hex => hlegal.1 hex hill, fun hill => ?_⟩
  obtain ⟨i, hd, hsys⟩ := hlegal.2 hill
  exact ⟨i, hd, hsys, step_of_fetch_run hmode (fetch_of_instr hpc hd)⟩

/-! ### The faults of a step -/

theorem mapNext_eq_fault_iff {g : State → State} {o : Result} {f : Fault} :
    mapNext g o = .fault f ↔ o = .fault f := by
  cases o <;> simp [mapNext]

/-- A block whose last address is above 4095 is out of range (20_memory R67). -/
theorem not_inRange_of_last {a n : Nat} (hn : n ≠ 0) (h : 4095 < a + n - 1) : ¬inRange a n = true := by
  rw [inRange_iff]
  omega

/-- A cause of a fault of the instruction's own makes it fault. -/
theorem exec_fault_of_cause {i : Instr} {s : State} {f : Fault} (h : FaultCause i s f) :
    exec i s = .fault f := by
  cases i with
  | sys => obtain rfl := h; rfl
  | ret =>
    obtain ⟨rfl, hsp⟩ := h
    exact (exec_ret s).trans (dif_pos hsp)
  | call nnn =>
    obtain ⟨rfl, hsp⟩ := h
    exact (exec_call nnn s).trans (dif_neg (by omega))
  | jpV0 nnn =>
    obtain ⟨rfl, hlast⟩ := h
    exact (exec_jpV0 nnn s).trans (if_neg (not_inRange_of_last (by decide) hlast))
  | drw x y n =>
    obtain ⟨rfl, hn, hlast⟩ := h
    exact (exec_drw x y n s).trans (if_neg (not_inRange_of_last (by omega) hlast))
  | ldBVx x =>
    obtain ⟨rfl, hlast⟩ := h
    exact (exec_ldBVx x s).trans (if_neg (not_inRange_of_last (by decide) hlast))
  | ldMemVx x =>
    obtain ⟨rfl, hlast⟩ := h
    exact (exec_ldMemVx x s).trans (if_neg (not_inRange_of_last (by omega) hlast))
  | ldVxMem x =>
    obtain ⟨rfl, hlast⟩ := h
    exact (exec_ldVxMem x s).trans (if_neg (not_inRange_of_last (by omega) hlast))
  | _ => exact absurd h not_false

theorem exec_eq_fault_iff {i : Instr} {s : State} {f : Fault} : exec i s = .fault f ↔ FaultCause i s f :=
  ⟨exec_fault_cause, exec_fault_of_cause⟩

/-- Settles O8, in the order of R257: the wait, the bounds of the fetch, decode, the instruction's own check. -/
theorem stepFaultsInPriorityOrder : Obligations.StepFaultsInPriorityOrder := by
  unfold Obligations.StepFaultsInPriorityOrder
  intro s f
  cases hmode : s.mode with
  | awaitingKey r => simp [step_awaitingKey hmode]
  | running =>
    obtain hpc | hpc := Nat.lt_or_ge 4094 s.pc.toNat
    · simp [step_of_fetch_fail hmode (fetch_of_pc_gt hpc), hpc, hpc.not_ge, eq_comm]
    cases hd : decodeWord (codeWord s) with
    | reject r =>
      simp [step_of_fetch_fail hmode (fetch_of_reject hpc hd), hpc, hpc.not_gt, eq_comm]
    | instr i =>
      rw [step_of_fetch_run hmode (fetch_of_instr hpc hd), mapNext_eq_fault_iff, exec_eq_fault_iff]
      simp [hpc, hpc.not_gt]

/-- Settles O9: the cases of O8 speak of `mode`, `pc`, memory, the registers, `I` and `sp` only. -/
theorem faultRepeatsWhateverTheInputs : Obligations.FaultRepeatsWhateverTheInputs := by
  unfold Obligations.FaultRepeatsWhateverTheInputs
  intro s f d e ts n h
  exact (stepFaultsInPriorityOrder _ f).2 ((stepFaultsInPriorityOrder s f).1 h)

end Sys2Proof.Proofs
end

section
/-! The timers (spec 60_exceptions R262, R263) and the key wait (R267) from one step to the next. -/

namespace Sys2Proof.Proofs

open Sys2Proof.Machine Sys2Proof.Safety

/-! ### A timer -/

theorem toNat_tickTimer (v : Byte) : (tickTimer v).toNat = v.toNat - 1 := by
  unfold tickTimer
  split
  case isTrue h => rw [h]; rfl
  case isFalse h => bv_omega

theorem toNat_tickTimes (k : Nat) (v : Byte) : (tickTimes k v).toNat = v.toNat - k := by
  induction k generalizing v with
  | zero => rfl
  | succ k ih => rw [tickTimes, ih, toNat_tickTimer, Nat.sub_sub, Nat.add_comm]

theorem toNat_tickTimer_add_one {v : Byte} (h : v ≠ 0#8) : (tickTimer v).toNat + 1 = v.toNat := by
  rw [toNat_tickTimer]
  exact Nat.sub_add_cancel (Nat.pos_of_ne_zero fun h0 => h (BitVec.eq_of_toNat_eq h0))

theorem tickTimer_zero {v : Byte} (h : v = 0#8) : tickTimer v = 0#8 := if_pos h

/-! ### The tick -/

theorem frame_tick (s : State) : Frame [.dt, .st] s s.tick := by
  intro p hp; cases p <;> simp_all [Same]

/-- Settles O11. -/
theorem tickDecrementsBothTimers : Obligations.TickDecrementsBothTimers := by
  unfold Obligations.TickDecrementsBothTimers
  exact fun s => ⟨toNat_tickTimer_add_one, tickTimer_zero, toNat_tickTimer_add_one, tickTimer_zero,
    fun _ _ => rfl, frame_tick s⟩

/-- A run of ticks is a run of ticks of each timer. -/
theorem iterate_tick (s : State) (k : Nat) :
    (State.tick^[k]) s = { s with dt := tickTimes k s.dt, st := tickTimes k s.st } := by
  induction k generalizing s with
  | zero => rfl
  | succ k ih => rw [Function.iterate_succ_apply, ih]; rfl

theorem endTurn_dt_le (s : State) : s.endTurn.dt.toNat ≤ s.dt.toNat :=
  (toNat_tickTimes _ _).trans_le (Nat.sub_le _ _)

/-! ### A step that completes -/

/-- A step that completes was the key check of a waiting machine or an instruction of a running one, and then the
end of the turn (40_control_flow R120). -/
theorem step_eq_next_cases {s t : State} (h : step s = .next t) :
    ∃ u, t = u.endTurn ∧
      ((∃ r, s.mode = .awaitingKey r ∧ u = s.awaitCheck r) ∨
        ∃ i, s.mode = .running ∧ s.fetch = .run i ∧ exec i s = .next u) := by
  cases hmode : s.mode with
  | awaitingKey r =>
    rw [step_awaitingKey hmode] at h
    cases h
    exact ⟨_, rfl, .inl ⟨r, rfl, rfl⟩⟩
  | running =>
    cases hf : s.fetch with
    | wait r => exact absurd hf (fetch_ne_wait s r)
    | fail f => rw [step_of_fetch_fail hmode hf] at h; cases h
    | run i =>
      rw [step_of_fetch_run hmode hf] at h
      obtain ⟨u, hu, rfl⟩ := mapNext_eq_next h
      exact ⟨u, rfl, .inr ⟨i, rfl, rfl, hu⟩⟩

/-! ### The delay timer -/

theorem awaitCheck_dt (r : Nibble) (s : State) : (s.awaitCheck r).dt = s.dt :=
  frame_awaitCheck r s .dt (by simp)

/-- Only LD DT,Vx writes the delay timer (45_timers_keys R231). -/
theorem exec_dt {i : Instr} {s t : State} (h : exec i s = .next t) (hi : ∀ x, i ≠ .ldDtVx x) :
    t.dt = s.dt := by
  cases i with
  | ldDtVx x => exact absurd rfl (hi x)
  | sys => cases h
  | ret => rw [exec_ret] at h; split at h <;> cases h; rfl
  | call => rw [exec_call] at h; split at h <;> cases h; rfl
  | jpV0 => rw [exec_jpV0] at h; obtain ⟨-, rfl⟩ := ite_eq_next h; rfl
  | drw => rw [exec_drw] at h; obtain ⟨-, rfl⟩ := ite_eq_next h; rfl
  | ldBVx => rw [exec_ldBVx] at h; obtain ⟨-, rfl⟩ := ite_eq_next h; rfl
  | ldMemVx => rw [exec_ldMemVx] at h; obtain ⟨-, rfl⟩ := ite_eq_next h; rfl
  | ldVxMem => rw [exec_ldVxMem] at h; obtain ⟨-, rfl⟩ := ite_eq_next h; rfl
  | ldVxK x => rw [exec_ldVxK] at h; cases h; exact awaitCheck_dt x s
  | _ => cases h; rfl

/-- Settles O12: the ticks are subtractions, and before them a step leaves the delay timer as it was. -/
theorem timersFallByTheTicksOfTheTurn : Obligations.TimersFallByTheTicksOfTheTurn := by
  unfold Obligations.TimersFallByTheTicksOfTheTurn
  refine ⟨fun s k => ?_, fun s => ?_, fun s t hstep hact => ?_⟩
  · rw [iterate_tick]
    exact ⟨toNat_tickTimes k s.dt, toNat_tickTimes k s.st⟩
  · rw [iterate_tick]
    rfl
  · obtain ⟨u, rfl, ⟨r, -, rfl⟩ | ⟨i, hmode, hf, hexec⟩⟩ := step_eq_next_cases hstep
    · exact awaitCheck_dt r s ▸ endTurn_dt_le _
    · rw [activity_running hmode, hf] at hact
      exact exec_dt hexec (fun x hi => hact x (congrArg _ hi)) ▸ endTurn_dt_le u

/-! ### The key wait -/

theorem awaitCheck_mode_none (r : Nibble) {s : State} (h : s.keys = 0#16) :
    (s.awaitCheck r).mode = .awaitingKey r := by
  rw [awaitCheck_none r s h]; rfl

/-- An instruction of a running machine that leaves it waiting was LD Vx,K with no key down (45_timers_keys R233). -/
theorem exec_enters_wait {i : Instr} {s t : State} {r : Nibble} (hmode : s.mode = .running)
    (h : exec i s = .next t) (ht : t.mode = .awaitingKey r) : i = .ldVxK r ∧ s.keys = 0#16 := by
  cases exec_effect h with
  | keeps _ _ hk => cases (hk.mode.trans hmode).symm.trans ht
  | store | call | ret => cases hmode.symm.trans ht
  | wait x =>
    by_cases hkeys : s.keys = 0#16
    · cases (awaitCheck_mode_none x hkeys).symm.trans ht
      exact ⟨rfl, hkeys⟩
    · cases (awaitCheck_mode x hkeys).symm.trans ht

/-- Settles O14: of the effects of an instruction only the key check of LD Vx,K enters the wait, and the same check
decides whether a pending one ends. -/
theorem onlyLdVxKWaitsAndOnlyAKeyEndsIt : Obligations.OnlyLdVxKWaitsAndOnlyAKeyEndsIt := by
  unfold Obligations.OnlyLdVxKWaitsAndOnlyAKeyEndsIt
  refine ⟨fun s t r hmode hstep ht => ?_, fun s t r hmode hstep => ?_⟩
  · obtain ⟨u, rfl, ⟨q, hq, -⟩ | ⟨i, -, hf, hexec⟩⟩ := step_eq_next_cases hstep
    · cases hmode.symm.trans hq
    · obtain ⟨rfl, hkeys⟩ := exec_enters_wait hmode hexec ht
      exact ⟨(activity_running hmode).trans hf, hkeys⟩
  · rw [step_awaitingKey hmode] at hstep
    cases hstep
    rw [endTurn_mode]
    by_cases hkeys : s.keys = 0#16
    · simp [awaitCheck_mode_none r hkeys, hkeys]
    · simp [awaitCheck_mode r hkeys, hkeys]

end Sys2Proof.Proofs
end

section
/-! Load (spec 70_reset_and_hazards R296) and the program that has stopped at a JP to its own address (R301). -/

namespace Sys2Proof.Proofs

open Sys2Proof.Machine Sys2Proof.Safety

/-! ### Load -/

theorem load_of_fits (s : State) {image : List Byte} (h : image.length ≤ 3584) :
    s.load image = .next ((s.setMem (Memory.writeBytes s.mem 0x200 image)).setPc 0x200#16) := if_pos h

theorem load_of_too_large (s : State) {image : List Byte} (h : 3584 < image.length) :
    s.load image = .fault .programTooLarge := if_neg h.not_ge

/-- Settles O18: Load is a run of byte writes from 0x200 up, and then one write of `pc`. -/
theorem loadCopiesTheImage : Obligations.LoadCopiesTheImage := by
  unfold Obligations.LoadCopiesTheImage
  intro s image
  refine ⟨load_of_too_large s, fun hfits => ⟨_, load_of_fits s hfits, rfl, fun k hk => ?inside,
    fun a ha => ?outside, fun _ _ => rfl,
    frame_trans (frame_setMem s _) (frame_setPc _ _) (by simp) (by simp)⟩⟩
  case inside => exact read_writeBytes_inside s.mem 0x200 k image hk
  case outside => exact read_writeBytes_outside s.mem 0x200 a image ha

/-! ### The stopped program -/

theorem toNat_wordNNN (t : Nibble) (nnn : Addr12) : (wordNNN t nnn).toNat = 0x1000 * t.toNat + nnn.toNat := by
  rw [wordNNN, BitVec.toNat_append, ← Nat.shiftLeft_add_eq_or_of_lt nnn.isLt, Nat.shiftLeft_eq, Nat.mul_comm]

/-- The low twelve bits of `pc`: the target with which a JP jumps to itself. -/
def ownTarget (s : State) : Addr12 := BitVec.ofNat 12 s.pc.toNat

theorem toNat_ownTarget {s : State} (hpc : s.pc.toNat ≤ 4094) : (ownTarget s).toNat = s.pc.toNat :=
  Nat.mod_eq_of_lt (by omega)

theorem codeWord_of_stopped {s : State} (h : Stopped s) : codeWord s = encode (.jp (ownTarget s)) := by
  obtain ⟨-, hpc, hword⟩ := h
  apply BitVec.eq_of_toNat_eq
  rw [hword, encode, toNat_wordNNN, toNat_ownTarget hpc]
  rfl

theorem fetch_of_stopped {s : State} (h : Stopped s) : s.fetch = .run (.jp (ownTarget s)) := by
  have ⟨_, hpc, _⟩ := h
  apply fetch_of_instr hpc
  rw [codeWord_of_stopped h]
  exact decodeOfEncodeIsTheInstruction (.jp (ownTarget s)) rfl

/-- `pc` is the target of its own JP, so the write of `pc` changes nothing (40_control_flow R124). -/
theorem exec_jp_ownTarget {s : State} (hpc : s.pc.toNat ≤ 4094) : exec (.jp (ownTarget s)) s = .next s := by
  have htarget : addrWord (ownTarget s) = s.pc :=
    BitVec.eq_of_toNat_eq ((toNat_addrWord _).trans (toNat_ownTarget hpc))
  calc exec (.jp (ownTarget s)) s
    _ = .next (s.setPc (addrWord (ownTarget s))) := rfl
    _ = .next s := by rw [htarget]; rfl

theorem stepEvent_of_stopped {s : State} (h : Stopped s) : stepEvent s = .next s := by
  have ⟨hmode, hpc, _⟩ := h
  rw [stepEvent, activity_running hmode, fetch_of_stopped h]
  exact exec_jp_ownTarget hpc

/-- Settles O51: the word of a stopped program is the JP to `pc`; the end of a turn touches neither `mode`, `pc` nor
memory. -/
theorem aStoppedProgramStaysStopped : Obligations.AStoppedProgramStaysStopped := by
  unfold Obligations.AStoppedProgramStaysStopped
  intro s h
  have hevent := stepEvent_of_stopped h
  refine ⟨hevent, ?_, h⟩
  rw [step, hevent, mapNext_next]

end Sys2Proof.Proofs
end
